-- ==== Sys2Proof/Word.lean ====
section
/-!
DEFINITION. Word.lean: the widths the spec fixes (`00_scope.md` R5), one name each.
-/

namespace Sys2Proof

/-- One byte of the device register space (R27). -/
abbrev Byte := BitVec 8

/-- `REG_ADDR_WIDTH` = 8: the address of one device register (R5, R27). -/
abbrev RegAddr := BitVec 8

/-- `COEFF_WIDTH` = 16: the pattern of one calibration coefficient (R5, R14, R53). -/
abbrev CalWord := BitVec 16

/-- `RAW_WIDTH` = 20: a raw ADC count, unsigned (R5, R54). -/
abbrev RawSample := BitVec 20

/-- The data field of a transport reply, 24 bits (R52). -/
abbrev Burst := BitVec 24

/-- `TFINE_WIDTH` = 32: the content of `T_FINE`, signed two's complement (R5, R16). -/
abbrev Fine := BitVec 32

/-- The `value` field of a response, signed 64-bit two's complement (R49). -/
abbrev Value := BitVec 64

/-- A command word: 2 bits, `op[1:0]` (R47). -/
abbrev CommandWord := BitVec 2

end Sys2Proof
end

