-- ==== Sys2Proof/Machine/Ports.lean ====
section
/-!
DEFINITION. Machine/Ports.lean: what crosses the block's two ports (`30_encoding.md` R47 to R52): command and
reset inputs, response records, transport requests and replies, and the collaborator's answers. The numeric codes are
the spec's own decisions D4 and D5 (log 11).
-/

namespace Sys2Proof.Machine

/-- The status of a response (R50). -/
inductive Status where
  /-- The command did what its rule says. -/
  | ok
  /-- The state-precondition error (R106). -/
  | errState
  /-- `ChipIdentityMismatch` (R107). -/
  | errChipId
  /-- `TransportFailure` (R108). -/
  | errTransport
  deriving DecidableEq, Repr

/-- `status[1:0]` (R50; the codes are decision D4). -/
def Status.code : Status → BitVec 2
  | .ok => 0b00#2
  | .errState => 0b01#2
  | .errChipId => 0b10#2
  | .errTransport => 0b11#2

/-- The status a code stands for: all four codes are used (R55). -/
def Status.ofCode (c : BitVec 2) : Status :=
  if c = 0b00#2 then .ok
  else if c = 0b01#2 then .errState
  else if c = 0b10#2 then .errChipId
  else .errTransport

/-- The three error kinds a command can raise (R105). The degenerate computation is none of them (R110). -/
inductive ErrorKind where
  | state
  | chipId
  | transport
  deriving DecidableEq, Repr

/-- The status an error kind is reported by (R105). -/
def ErrorKind.status : ErrorKind → Status
  | .state => .errState
  | .chipId => .errChipId
  | .transport => .errTransport

/-- The response record of a command (R49). -/
structure Response where
  status : Status
  value : Value
  deriving DecidableEq, Repr

/-- The record as 66 bits: `status` in bits 65:64, `value` in bits 63:0 (R49). -/
def Response.encode (r : Response) : BitVec 66 := r.status.code ++ r.value

/-- The record that 66 bits stand for. -/
def Response.decode (w : BitVec 66) : Response :=
  ⟨Status.ofCode (w.extractLsb' 64 2), w.extractLsb' 0 64⟩

/-- A transport request (R51): one of the four primitives of R28, or the setup primitive of R34. The address is that of
the first byte. A field that R51 calls ignored is not there (log 17). -/
inductive TpRequest where
  /-- R30 -/
  | readByte (reg : RegAddr)
  /-- R31 -/
  | readWord16LE (reg : RegAddr)
  /-- R32 -/
  | read24 (reg : RegAddr)
  /-- R33 -/
  | writeByte (reg : RegAddr) (val : Byte)
  /-- R34 -/
  | tpSetup
  deriving DecidableEq, Repr

/-- `tp_op[2:0]` (R51; the codes are decision D5). -/
def TpRequest.tpOp : TpRequest → BitVec 3
  | .readByte _ => 0b000#3
  | .readWord16LE _ => 0b001#3
  | .read24 _ => 0b010#3
  | .writeByte _ _ => 0b011#3
  | .tpSetup => 0b100#3

/-- `reg[7:0]`, where the primitive uses it (R51). -/
def TpRequest.reg : TpRequest → Option RegAddr
  | .readByte r => some r
  | .readWord16LE r => some r
  | .read24 r => some r
  | .writeByte r _ => some r
  | .tpSetup => none

/-- `wdata[7:0]`, meaningful only for `writeByte` (R51). -/
def TpRequest.wdata : TpRequest → Option Byte
  | .writeByte _ v => some v
  | _ => none

/-- The request that the record `(tp_op, reg, wdata)` stands for. The codes 101, 110 and 111 are unassigned and are
refused (R51, R55, U10). -/
def TpRequest.ofRecord (op : BitVec 3) (reg : RegAddr) (wdata : Byte) : Option TpRequest :=
  if op = 0b000#3 then some (.readByte reg)
  else if op = 0b001#3 then some (.readWord16LE reg)
  else if op = 0b010#3 then some (.read24 reg)
  else if op = 0b011#3 then some (.writeByte reg wdata)
  else if op = 0b100#3 then some .tpSetup
  else none

/-- The bytes a primitive moves (R38). -/
def TpRequest.bytesMoved : TpRequest → Nat
  | .readByte _ => 1
  | .readWord16LE _ => 2
  | .read24 _ => 3
  | .writeByte _ _ => 1
  | .tpSetup => 0

/-- A transport reply (R52): data with `fail = 0`, or `fail = 1`, whose data is meaningless and is not there (log 17). -/
inductive TpReply where
  | data (rdata : Burst)
  | failure
  deriving DecidableEq, Repr

/-- The bit `fail` of a reply (R52). -/
def TpReply.fail : TpReply → Bool
  | .data _ => false
  | .failure => true

/-- One transport event as the collaborator sees it (R101): the request, and its reply, which is absent for a
transaction that has not completed (R131). -/
structure TpEvent where
  request : TpRequest
  reply : Option TpReply
  deriving DecidableEq, Repr

/-- How the collaborator answers one transaction (R28, R29, R131). A request takes as many of the three bytes, in
ascending address order, as it moves to the core. -/
inductive Answer where
  /-- Success; the bytes at `reg`, `reg+1`, `reg+2`. -/
  | bytes (b0 b1 b2 : Byte)
  /-- `TransportFailure` (R35). -/
  | fail
  /-- The transaction never completes (R131, U9). -/
  | never
  deriving DecidableEq, Repr, Inhabited

/-- The data of a successful reply (R52), with the byte order of R31 and R32: little-endian words, big-endian bursts,
right aligned, the upper bits 0. What the two terms mean by address is general knowledge of the spec, G4 (log 12). -/
def TpRequest.assemble (q : TpRequest) (b0 b1 b2 : Byte) : Burst :=
  match q with
  | .readByte _ => b0.setWidth 24
  | .readWord16LE _ => (b1 ++ b0).setWidth 24
  | .read24 _ => (b0 ++ b1 ++ b2).setWidth 24
  | .writeByte _ _ => 0#24
  | .tpSetup => 0#24

/-- What reaches the block from outside besides transport replies: a command word on the command port (R48), or the
hardware reset (R122). -/
inductive Input where
  | command (word : CommandWord)
  | hardwareReset
  deriving DecidableEq, Repr

end Sys2Proof.Machine
end

