-- ==== Sys2Proof/Config.lean ====
section
/-!
DEFINITION. Config.lean: the parameters of `00_scope.md` R5, the fixed device addresses of `20_memory.md` R41, and the
free values. An `opaque` constant has no body: nothing can evaluate it, so a claim holds for every value of it.
-/

namespace Sys2Proof.Config

/-- `N_COEFF` (R5). -/
def nCoeff : Nat := 12

/-- `TEMP_DIVISOR`: the unit is degrees Celsius (R5). -/
def tempDivisor : Nat := 100

/-- `PRESS_DIVISOR`: the unit is pascals (R5; decision D8). -/
def pressDivisor : Nat := 256

/-- `DIV_OVF`, the quotient of −2^63 by −1: −2^63, the spec's choice (R5, R9; decision D18, log 10). -/
def divOvf : Int := -9223372036854775808

/-- `EXPECTED_CHIP_ID`, OPEN (R5; decision D9, log 4): the value the machine is built with. The spec gives none, and a
model must not hard-code one (G1). -/
opaque expectedChipId : Byte

/-- `CHIP_ID_CHECK`: default true, OPEN (R5; decision D9, log 4). -/
def chipIdCheckDefault : Bool := true

/-- What a reading can become in the OPEN format `FLOAT_FMT`. The spec names no format (R5, U3; decision D7), so these
kinds of result are the model's choice (DESIGN CHOICE, log 13): a finite number, an infinity (100653 Pa overflows a small
format), or no number. -/
inductive FloatDatum where
  | finite (x : ℚ)
  | infinity (negative : Bool)
  | notANumber
  deriving DecidableEq, Repr, Inhabited

/-- `FLOAT_FMT`, OPEN (R5; decision D7): what the format's final division makes of a response value and its divisor (R73,
R85). That it is a total function of the two with a `FloatDatum` as result is the model's choice (DESIGN CHOICE, log 13).
Nothing in the block uses it. -/
opaque floatFmt (value : Int) (divisor : Nat) : FloatDatum

/-- FREE VALUE (U7, U8, U9; log 2): how the collaborator answers the `n`-th transaction past the scripted answers. -/
opaque freeAnswer : Nat → Machine.Answer

/-- DIG_T1, the first byte of the calibration words (R41). -/
def addrCal : RegAddr := 0x88#8

/-- CHIP_ID (R41). -/
def addrChipId : RegAddr := 0xD0#8

/-- SOFT_RESET (R41). -/
def addrSoftReset : RegAddr := 0xE0#8

/-- The one value written to SOFT_RESET (R33). -/
def softResetValue : Byte := 0xB6#8

/-- PRESSURE_DATA (R41). -/
def addrPressureData : RegAddr := 0xF7#8

/-- TEMP_DATA (R41). -/
def addrTempData : RegAddr := 0xFA#8

end Sys2Proof.Config
end

