-- ==== Sys2Proof/Machine/Coeff.lean ====
section
/-!
DEFINITION. Machine/Coeff.lean: the twelve coefficients, their numbering, device addresses and types
(`10_state.md` R14, `40_calibration_store.md` R62).
-/

namespace Sys2Proof.Machine

/-- The twelve coefficients by name (R14). -/
inductive Coeff where
  | T1 | T2 | T3 | P1 | P2 | P3 | P4 | P5 | P6 | P7 | P8 | P9
  deriving DecidableEq, Repr

/-- The coefficients in index order, which is also the order in which CAL_LOAD reads them (R14, R60). -/
def Coeff.all : List Coeff :=
  [.T1, .T2, .T3, .P1, .P2, .P3, .P4, .P5, .P6, .P7, .P8, .P9]

/-- The index `i` of a coefficient in `cal[0..11]` (R14; decision D32). -/
def Coeff.index : Coeff → Fin 12
  | .T1 => 0 | .T2 => 1 | .T3 => 2
  | .P1 => 3 | .P2 => 4 | .P3 => 5 | .P4 => 6 | .P5 => 7 | .P6 => 8 | .P7 => 9 | .P8 => 10 | .P9 => 11

/-- The device address of coefficient `i` is `0x88 + 2*i` (R14, R59). -/
def Coeff.addr (c : Coeff) : RegAddr := Config.addrCal + BitVec.ofNat 8 (2 * c.index.val)

/-- `T1` and `P1` are unsigned, all others signed (R14, R53). -/
def Coeff.signed : Coeff → Bool
  | .T1 => false
  | .P1 => false
  | _ => true

/-- The number a stored pattern stands for under the coefficient's type (R53, R62). Widening to 32 or 64 bits keeps
the number, so one function serves both consumers. -/
def Coeff.value (c : Coeff) (w : CalWord) : Int :=
  if c.signed then w.toInt else (w.toNat : Int)

end Sys2Proof.Machine
end

