-- ==== Sys2Proof/Syntax.lean ====
section
/-!
DEFINITION. Syntax.lean: the four commands, one constructor per row of spec/opcode_table.json.
A command has no operand field (`30_encoding.md` R47).
-/

namespace Sys2Proof

/-- The core executes exactly four commands (R47). The micro-operations CAL_LOAD, SAMPLE, COMP_T and
COMP_P have no encoding and are no instructions (R58). -/
inductive Instr where
  /-- BEGIN, the source's `begin()` (`44_commands.md` R93). -/
  | begin
  /-- READ_TEMPERATURE, the source's `readTemperature()` (R95). -/
  | readTemperature
  /-- READ_PRESSURE, the source's `readPressure()` (R96). -/
  | readPressure
  /-- RESET, the source's `reset()` (R98). Not the hardware reset of R122. -/
  | reset
  deriving DecidableEq, Repr

/-- The four commands in the order of their codes. -/
def Instr.all : List Instr := [.begin, .readTemperature, .readPressure, .reset]

end Sys2Proof
end

