-- ==== Sys2Proof/WellFormed.lean ====
section
/-!
DEFINITION. WellFormed.lean: the checks on what is written or transmitted. A command has no operand, so every command
is well formed (`30_encoding.md` R47, R55); a command word framed in a byte must be a 2-bit number; a transport request
of the core is one of the few of `20_memory.md` R38.
-/

namespace Sys2Proof

/-- Every command is well formed: no command takes an argument (R47). -/
def Instr.wf : Instr → Bool
  | .begin => true
  | .readTemperature => true
  | .readPressure => true
  | .reset => true

/-- A byte that frames a command word holds a 2-bit number: bits 7:2 are 0 (R47, R56; the framing is log 9). -/
def commandByteWf (b : Byte) : Bool := b.toNat < 4

/-- The requests the core ever issues, with the addresses it uses them on (R33, R38). -/
def Machine.TpRequest.issuedByCore : Machine.TpRequest → Bool
  | .readByte r => r == Config.addrChipId
  | .readWord16LE r => Machine.Coeff.all.any fun c => r == c.addr
  | .read24 r => r == Config.addrTempData || r == Config.addrPressureData
  | .writeByte r v => r == Config.addrSoftReset && v == Config.softResetValue
  | .tpSetup => true

end Sys2Proof
end

