-- ==== Sys2Proof/Decode.lean ====
section
/-!
DEFINITION. Decode.lean: the command decoder and, after it, the encoder (`30_encoding.md` R47, R55 to R57).
On 2-bit words the decoder is total (R55). A byte or a list of bytes is decoded too, and what is no command word is
rejected by name; one byte frames one command word, which is how spec/opcode_table.json counts the bits (log 9).
-/

namespace Sys2Proof

/-- Why bytes are no command. -/
inductive DecodeError where
  /-- No byte is there. -/
  | noWord
  /-- A bit above `op[1:0]` is set: the byte is no 2-bit command word (R47, R56). -/
  | notACommandWord (b : Byte)
  deriving DecidableEq, Repr

/-- The command of a command word (R47, table of `op[1:0]`). Total: all four words are assigned (R55). -/
def decode (w : CommandWord) : Instr :=
  if w = 0b00#2 then .begin
  else if w = 0b01#2 then .readTemperature
  else if w = 0b10#2 then .readPressure
  else .reset

/-- The command word a number of at most 8 bits frames, if its bits above `op[1:0]` are 0 (log 9). -/
def commandWordOf (w : Nat) : Option CommandWord :=
  if w < 4 then some (BitVec.ofNat 2 w) else none

/-- The command a byte frames. -/
def decodeByte (b : Byte) : Except DecodeError Instr :=
  match commandWordOf b.toNat with
  | some w => .ok (decode w)
  | none => .error (.notACommandWord b)

/-- The first command of a list of bytes, and the bytes after it. -/
def decodeFirst : List Byte → Except DecodeError (Instr × List Byte)
  | [] => .error .noWord
  | b :: rest =>
    match decodeByte b with
    | .ok i => .ok (i, rest)
    | .error e => .error e

/-- A whole program: the list of its commands in order (R57), or the first byte that is no command word. -/
def decodeProgram : List Byte → Except DecodeError (List Instr)
  | [] => .ok []
  | b :: rest =>
    match decodeByte b with
    | .error e => .error e
    | .ok i =>
      match decodeProgram rest with
      | .error e => .error e
      | .ok p => .ok (i :: p)

/-- The command word of a command (R47, table of `op[1:0]`). -/
def encode : Instr → CommandWord
  | .begin => 0b00#2
  | .readTemperature => 0b01#2
  | .readPressure => 0b10#2
  | .reset => 0b11#2

/-- A command word framed in a byte (log 9). -/
def encodeByte (i : Instr) : Byte := (encode i).setWidth 8

/-- The encoding of a program is the list of its command words in order (R57), here one byte a word. -/
def encodeProgram (p : List Instr) : List Byte := p.map encodeByte

/-- The written form of a command (R57). -/
def Instr.mnemonic : Instr → String
  | .begin => "BEGIN"
  | .readTemperature => "READ_TEMPERATURE"
  | .readPressure => "READ_PRESSURE"
  | .reset => "RESET"

/-- The source's spelling of the same command (R57). -/
def Instr.sourceName : Instr → String
  | .begin => "begin()"
  | .readTemperature => "readTemperature()"
  | .readPressure => "readPressure()"
  | .reset => "reset()"

/-- The command a written word stands for, in either spelling (R57). -/
def Instr.ofWritten (t : String) : Option Instr :=
  Instr.all.find? fun i => t == i.mnemonic || t == i.sourceName

/-- The command read from a word numbered as spec/opcode_table.json numbers it. A row has 2 bits; the number's bits above
`op[1:0]` belong to no command word (log 9). -/
def decodeTableWord (nbits w : Nat) : Option Instr :=
  if nbits < 2 then none else (commandWordOf w).map decode

end Sys2Proof
end

