-- ==== Sys2Proof/Machine/State.lean ====
section
/-!
DEFINITION. Machine/State.lean: the state of the machine as plain data, what can stop a step, and the state after the
hardware reset (`10_state.md` R13 to R26, `70_reset_and_hazards.md` R122).
-/

namespace Sys2Proof.Machine

/-- `STATE` (R17). -/
inductive Control where
  | uninitialized
  | ready
  deriving DecidableEq, Repr

/-- The Calibration Store `cal[0..11]` (R14): sixteen-bit patterns, or no value (R22, R25; log 1). -/
abbrev CalStore := Vector (Option CalWord) 12

/-- Every `cal[i]` holds no value (R22, R25). -/
def CalStore.none : CalStore := Vector.replicate 12 Option.none

/-- The OPEN parameters (R5), fixed before reset and never changed while the block runs (R123; log 4). -/
structure Params where
  /-- `EXPECTED_CHIP_ID` -/
  expectedChipId : Byte
  /-- `CHIP_ID_CHECK` -/
  chipIdCheck : Bool
  deriving DecidableEq, Repr

/-- Why the machine stops with no further step. Every fault is safe: the model stops, and no claim about what follows
can be proved. -/
inductive Fault where
  /-- A read of a coefficient register that holds no value: R22 (`10_state.md`), "a model must make a read of it a fault
  of the model, not a value" (also U6, D16). Raised by READ_TEMPERATURE and READ_PRESSURE in states no run reaches. Safe. -/
  | coeffNoValue (c : Coeff)
  /-- A read of `T_FINE` while it holds no value: R22 (`10_state.md`), in the same words (also U6, D16). Raised by no
  command in any state, since the temperature phase of READ_PRESSURE writes `T_FINE` before its only read (R16). Safe. -/
  | tFineNoValue
  /-- The stuck state of R131 (`70_reset_and_hazards.md`), U9: a transaction never completes, the command never
  responds, and there is no further step but the hardware reset. Raised by `step`. Safe. -/
  | transportHang
  deriving DecidableEq, Repr

/-- What the model refuses. -/
inductive Refusal where
  /-- An instruction without a meaning; raised by an arm of `exec`, and by none of them now. Safe. -/
  | notModelled (mnemonic : String)
  /-- A command offered while one is in progress: the port does not accept it (R48, D25, U14 `refuse`). Raised by
  `step` when a transaction is outstanding. Safe. -/
  | portBusy
  deriving DecidableEq, Repr

/-- The machine's state: the spec's own state (the first four fields), the parameters, and the two ports as plain
data (the model's own fields; INVENTORY.md, State). -/
structure State where
  /-- `STATE` (R17). -/
  control : Control
  /-- `cal[0..11]` (R14). -/
  cal : CalStore
  /-- `T_FINE` (R16): signed 32 bits, or no value (R22, R25; log 1). -/
  tFine : Option Fine
  /-- The transport transaction that has been issued and has not completed; at most one (R29, R122, R131). Between
  commands there is none, unless the command hangs (log 6). -/
  outstanding : Option TpRequest
  /-- The OPEN parameters (R5; log 4). -/
  params : Params
  /-- What the outside presents to the block, oldest first (R12, R48; log 5). -/
  inputs : List Input
  /-- How the collaborator will answer the next transactions, oldest first (R12, R28; log 2). -/
  answers : List Answer
  /-- How many free answers have been drawn past the scripted ones (log 2). -/
  drawn : Nat
  /-- The transport events so far, oldest first (R101; log 8). -/
  trace : List TpEvent
  /-- The responses so far, oldest first (R49; log 8). -/
  responses : List Response
  deriving DecidableEq, Repr

/-- The machine right after the hardware reset (R25, R122): `Uninitialized`, no register holds a value, nothing is
outstanding; nothing has been presented to either port (log 3). -/
def State.reset : State where
  control := .uninitialized
  cal := CalStore.none
  tFine := none
  outstanding := none
  params := { expectedChipId := Config.expectedChipId, chipIdCheck := Config.chipIdCheckDefault }
  inputs := []
  answers := []
  drawn := 0
  trace := []
  responses := []

end Sys2Proof.Machine
end

