-- ==== Sys2Proof/Machine/Ops.lean ====
section
/-!
DEFINITION. Machine/Ops.lean: the operations every command is made of: reading and writing the registers, responding,
raising an error, and the five transport primitives.
-/

namespace Sys2Proof.Machine

/-! ### Registers -/

/-- `cal[i]` of a coefficient (R14): its pattern, or no value. -/
def State.coeff (s : State) (c : Coeff) : Option CalWord := s.cal[c.index]

/-- `cal[i] <- v` in the store. -/
def CalStore.write (cal : CalStore) (c : Coeff) (w : CalWord) : CalStore := cal.set c.index (some w)

/-- The writes `cal[i] <- stage[i]` of CAL_LOAD, all together (R64). -/
def CalStore.commit (cal : CalStore) (stage : List (Coeff × CalWord)) : CalStore :=
  stage.foldl (fun m cw => m.write cw.1 cw.2) cal

/-- `T_FINE <- v`, with `v` a signed 32-bit number. -/
def State.setTFine (s : State) (v : Int) : State := { s with tFine := some (BitVec.ofInt 32 v) }

/-- `STATE <- Ready`, the last step of a BEGIN that fully succeeds; `T_FINE` holds no value after it (R13, R93; log 16). -/
def State.toReady (s : State) : State := { s with control := .ready, tFine := none }

/-- `STATE <- Uninitialized` and every register holds no value, as RESET leaves them (R98, R22). -/
def State.toUninitialized (s : State) : State :=
  { s with control := .uninitialized, cal := CalStore.none, tFine := none }

/-- The hardware reset (R122): no register holds a value, no transaction is outstanding, and no transport transaction
is issued. What the outside holds (inputs, answers, what it has observed) is untouched (log 7). -/
def State.hardwareReset (s : State) : State := { s.toUninitialized with outstanding := none }

/-! ### Outputs (R26) -/

/-- `state_q` (R26), with the encoding of R17: `Uninitialized` = 0, `Ready` = 1 (decision D26). -/
def State.stateQ (s : State) : BitVec 1 :=
  match s.control with
  | .uninitialized => 0#1
  | .ready => 1#1

/-- `t_fine_valid` (R26): 0 exactly when `T_FINE` holds no value. -/
def State.tFineValid (s : State) : BitVec 1 := if s.tFine.isSome then 1#1 else 0#1

/-- `t_fine_q` (R26); it has content only while `t_fine_valid` is 1. -/
def State.tFineQ (s : State) : Option Fine := s.tFine

/-- The run has ended (R133): no command is left, and no transaction is outstanding. -/
def State.ended (s : State) : Bool := s.inputs.isEmpty && s.outstanding.isNone

/-! ### Responding and raising -/

/-- `respond(status, value)`: the command ends with one response record (R49). -/
def State.respond (s : State) (status : Status) (value : Value) : State :=
  { s with responses := s.responses ++ [⟨status, value⟩] }

/-- TAKING AN ERROR (R104, R112): the response `(status, 0)` and nothing else. Nothing is saved and control goes
nowhere; there is no return from it, the next command starts clean (R113). The value 0 is decision D20 (log 11). -/
def State.takeError (s : State) (e : ErrorKind) : State := s.respond e.status 0#64

/-- Where a command stands after some of its steps. -/
inductive Flow (α : Type) where
  /-- The steps so far are done, with result `a`. -/
  | done (a : α) (s : State)
  /-- A step raised an error: the command stops there (R91, R104). -/
  | raised (e : ErrorKind) (s : State)
  /-- A transaction never completes: the command never responds (R131). -/
  | hung (s : State)

/-- The next steps, when the steps so far are done (R91). -/
def Flow.andThen {α β : Type} (c : Flow α) (f : α → State → Flow β) : Flow β :=
  match c with
  | .done a s => f a s
  | .raised e s => .raised e s
  | .hung s => .hung s

/-- The result of the steps so far, seen through `f`. -/
def Flow.map {α β : Type} (f : α → β) (c : Flow α) : Flow β :=
  match c with
  | .done a s => .done (f a) s
  | .raised e s => .raised e s
  | .hung s => .hung s

/-- The end of a command (R91): `OK` with its value, or the error's response, or, if it hangs, no response. -/
def Flow.finish {α : Type} (value : α → Value) (c : Flow α) : State :=
  match c with
  | .done a s => s.respond .ok (value a)
  | .raised e s => s.takeError e
  | .hung s => s

/-! ### The transport (R28 to R35) -/

/-- How the collaborator answers the next transaction, and the state with that answer taken: the next scripted answer,
and past the script a free value (U7, U8, U9; log 2). -/
def State.nextAnswer (s : State) : Answer × State :=
  match s.answers with
  | a :: rest => (a, { s with answers := rest })
  | [] => (Config.freeAnswer s.drawn, { s with drawn := s.drawn + 1 })

/-- The answer that the transaction after the next `j` ones will get. -/
def State.answerAt (s : State) (j : Nat) : Answer :=
  match s.answers[j]? with
  | some a => a
  | none => Config.freeAnswer (s.drawn + (j - s.answers.length))

/-- The collaborator sees one more event. -/
def State.observe (s : State) (q : TpRequest) (r : Option TpReply) : State :=
  { s with trace := s.trace ++ [⟨q, r⟩] }

/-- The reply a request gets from an answer: data, failure (R35), or none when the transaction never completes (R131). -/
def TpRequest.replyTo (q : TpRequest) (a : Answer) : Option TpReply :=
  match a with
  | .bytes b0 b1 b2 => some (.data (q.assemble b0 b1 b2))
  | .fail => some .failure
  | .never => none

/-- One blocking transaction (R29): success with the reply's data, `TransportFailure` (R35), or, when it never
completes, a hang (R131). -/
def transact (q : TpRequest) (s : State) : Flow Burst :=
  let s1 := s.nextAnswer.2.observe q (q.replyTo s.nextAnswer.1)
  match s.nextAnswer.1 with
  | .bytes b0 b1 b2 => .done (q.assemble b0 b1 b2) s1
  | .fail => .raised .transport s1
  | .never => .hung { s1 with outstanding := some q }

/-- `readByte(reg)` (R30): `rdata[7:0]` (R52). -/
def readByte (reg : RegAddr) (s : State) : Flow Byte :=
  (transact (.readByte reg) s).map fun d => d.extractLsb' 0 8

/-- `readWord16LE(reg)` (R31): `rdata[15:0]` (R52). -/
def readWord16LE (reg : RegAddr) (s : State) : Flow CalWord :=
  (transact (.readWord16LE reg) s).map fun d => d.extractLsb' 0 16

/-- `read24(reg)` (R32): `rdata[23:0]` (R52). -/
def read24 (reg : RegAddr) (s : State) : Flow Burst := transact (.read24 reg) s

/-- `writeByte(reg, val)` (R33). -/
def writeByte (reg : RegAddr) (val : Byte) (s : State) : Flow Unit :=
  (transact (.writeByte reg val) s).map fun _ => ()

/-- `TpSetup()` (R34). -/
def tpSetup (s : State) : Flow Unit := (transact .tpSetup s).map fun _ => ()

end Sys2Proof.Machine
end

