-- ==== Sys2Proof/Machine/Operands.lean ====
section
/-!
DEFINITION. Machine/Operands.lean: the operand forms of the block: the typed coefficient lookup
(`40_calibration_store.md` R62), the raw sample (`41_raw_sample.md` R66) and the content of `T_FINE`
(`43_pressure_compensation.md` R78). Widening to 32 or 64 bits keeps the number, so an operand is an integer.
-/

namespace Sys2Proof.Machine

/-- The coefficients of COMP_T (R69). -/
structure TempCoeffs where
  t1 : Int
  t2 : Int
  t3 : Int
  deriving DecidableEq, Repr

/-- The coefficients of COMP_P (R78). -/
structure PressCoeffs where
  p1 : Int
  p2 : Int
  p3 : Int
  p4 : Int
  p5 : Int
  p6 : Int
  p7 : Int
  p8 : Int
  p9 : Int
  deriving DecidableEq, Repr

/-- `T1 = zext_32(cal[0])`, `T2 = sext_32(cal[1])`, `T3 = sext_32(cal[2])` (R62). -/
def TempCoeffs.ofWords (w1 w2 w3 : CalWord) : TempCoeffs :=
  ⟨Coeff.T1.value w1, Coeff.T2.value w2, Coeff.T3.value w3⟩

/-- `P1 = zext_64(cal[3])` and `Pk = sext_64(cal[k+2])` (R62). -/
def PressCoeffs.ofWords (w1 w2 w3 w4 w5 w6 w7 w8 w9 : CalWord) : PressCoeffs :=
  ⟨Coeff.P1.value w1, Coeff.P2.value w2, Coeff.P3.value w3, Coeff.P4.value w4, Coeff.P5.value w5, Coeff.P6.value w6,
    Coeff.P7.value w7, Coeff.P8.value w8, Coeff.P9.value w9⟩

/-- A read of a coefficient register; a register that holds no value makes it a fault of the model (R22). -/
def State.readCoeff (s : State) (c : Coeff) : Except Fault CalWord :=
  match s.coeff c with
  | some w => .ok w
  | none => .error (.coeffNoValue c)

/-- A read of `T_FINE`; no value makes it a fault of the model (R22). -/
def State.readTFine (s : State) : Except Fault Int :=
  match s.tFine with
  | some f => .ok f.toInt
  | none => .error .tFineNoValue

/-- The lookups of COMP_T (R62). -/
def State.tempCoeffs (s : State) : Except Fault TempCoeffs := do
  let w1 ← s.readCoeff .T1
  let w2 ← s.readCoeff .T2
  let w3 ← s.readCoeff .T3
  return .ofWords w1 w2 w3

/-- The lookups of COMP_P (R62). -/
def State.pressCoeffs (s : State) : Except Fault PressCoeffs := do
  let w1 ← s.readCoeff .P1
  let w2 ← s.readCoeff .P2
  let w3 ← s.readCoeff .P3
  let w4 ← s.readCoeff .P4
  let w5 ← s.readCoeff .P5
  let w6 ← s.readCoeff .P6
  let w7 ← s.readCoeff .P7
  let w8 ← s.readCoeff .P8
  let w9 ← s.readCoeff .P9
  return .ofWords w1 w2 w3 w4 w5 w6 w7 w8 w9

/-- The sample in a burst `w[23:0]`: `w[23:4]`, unsigned; `w[3:0]` is discarded whatever it holds (R54, R66, R67). -/
def sampleOf (w : Burst) : RawSample := w.extractLsb' 4 20

/-- SAMPLE(reg) (R66): one `read24`, and its sample. -/
def sample (reg : RegAddr) (s : State) : Flow RawSample := (read24 reg s).map sampleOf

end Sys2Proof.Machine
end

