-- ==== Sys2Proof/Machine/Calibration.lean ====
section
/-!
DEFINITION. Machine/Calibration.lean: CAL_LOAD (`40_calibration_store.md` R59 to R65). It validates nothing (R61).
-/

namespace Sys2Proof.Machine

/-- The reads of CAL_LOAD, one `readWord16LE` a coefficient, in the order of the list (R59, R60). They stop at the first
that fails (R65). The words are gathered in a staging copy (R64). -/
def readWords : List Coeff → State → Flow (List (Coeff × CalWord))
  | [], s => .done [] s
  | c :: cs, s =>
    (readWord16LE c.addr s).andThen fun w s1 =>
    (readWords cs s1).andThen fun stage s2 =>
    .done ((c, w) :: stage) s2

/-- CAL_LOAD (R59): twelve reads in ascending address order, and, only when all have succeeded, all twelve registers
written together (R64). -/
def calLoad (s : State) : Flow Unit :=
  (readWords Coeff.all s).andThen fun stage s1 =>
  .done () { s1 with cal := s1.cal.commit stage }

end Sys2Proof.Machine
end

