-- ==== Sys2Proof/Machine/Flags.lean ====
section
/-!
DEFINITION. Machine/Flags.lean: the block has no status flags and no condition codes (`10_state.md` R19). What decides
a command's course instead are the few conditions of `44_commands.md` R102, and they stand here.
-/

namespace Sys2Proof.Machine

/-- The state precondition (R92, table): in which `STATE` a command is valid. BEGIN in `Ready` and RESET in
`Uninitialized` are the spec's own decisions D13 and D14 (log 11). -/
def validIn (i : Instr) (c : Control) : Bool :=
  match i, c with
  | .begin, .uninitialized => true
  | .begin, .ready => false
  | .readTemperature, .uninitialized => false
  | .readTemperature, .ready => true
  | .readPressure, .uninitialized => false
  | .readPressure, .ready => true
  | .reset, .uninitialized => false
  | .reset, .ready => true

/-- The identity compare of BEGIN, an 8-bit equality (R93, R107). -/
def chipIdMatches (p : Params) (id : Byte) : Bool := id == p.expectedChipId

/-- The state check, the first thing a command does (R91, R92, R111): a command that is not valid in the current `STATE`
takes the state-precondition error, issues nothing and changes no state (R106). -/
def checked (i : Instr) (s : State) (body : Host.Outcome State Fault Refusal) : Host.Outcome State Fault Refusal :=
  if validIn i s.control then body else .next (s.takeError .state)

end Sys2Proof.Machine
end

