-- ==== Sys2Proof/Machine/Lifecycle.lean ====
section
/-!
DEFINITION. Machine/Lifecycle.lean: the commands BEGIN and RESET (`44_commands.md` R93, R94, R98, R99).
-/

namespace Sys2Proof.Machine

/-- The identity check of BEGIN (R93): if `CHIP_ID_CHECK`, one `readByte(0xD0)` compared with `EXPECTED_CHIP_ID`; a
difference is `ERR_CHIP_ID`, before any calibration read (R107). -/
def checkChipId (s : State) : Flow Unit :=
  if s.params.chipIdCheck then
    (readByte Config.addrChipId s).andThen fun id s1 =>
    if chipIdMatches s1.params id then .done () s1 else .raised .chipId s1
  else .done () s

/-- The steps of BEGIN after the state check (R93). -/
def beginSteps (s : State) : Flow Unit :=
  (tpSetup s).andThen fun _ s1 =>
  (checkChipId s1).andThen fun _ s2 =>
  (calLoad s2).andThen fun _ s3 =>
  .done () s3.toReady

/-- BEGIN (R93). In `Ready` it is refused with `ERR_STATE` (R94). Its response has the value 0 (R49). -/
def execBegin (s : State) : Host.Outcome State Fault Refusal :=
  checked .begin s (.next ((beginSteps s).finish fun _ => 0#64))

/-- The steps of RESET after the state check (R98). `STATE` becomes `Uninitialized` and the registers lose their values
whether or not the write succeeded (R99 (b), decision D15, log 11); a write that never completes is followed by nothing
(R131, log 18). -/
def resetSteps (s : State) : Flow Unit :=
  match writeByte Config.addrSoftReset Config.softResetValue s with
  | .done _ s1 => .done () s1.toUninitialized
  | .raised e s1 => .raised e s1.toUninitialized
  | .hung s1 => .hung s1

/-- RESET (R98). In `Uninitialized` it is refused with `ERR_STATE` (R99 (a)). Its response has the value 0 (R49). -/
def execReset (s : State) : Host.Outcome State Fault Refusal :=
  checked .reset s (.next ((resetSteps s).finish fun _ => 0#64))

end Sys2Proof.Machine
end

