-- ==== Sys2Proof/Machine/Arith.lean ====
section
/-!
DEFINITION. Machine/Arith.lean: the arithmetic primitives of `00_scope.md` R6 to R9. Every expression of the spec is
read in the integers and then reduced by an explicit wrap, and so it is here.
-/

namespace Sys2Proof.Machine

/-- `wrap32` (R6): the representative modulo 2^32 between −2^31 and 2^31 − 1. -/
def wrap32 (x : Int) : Int := x.bmod 4294967296

/-- `wrap64` (R6): the representative modulo 2^64 between −2^63 and 2^63 − 1. -/
def wrap64 (x : Int) : Int := x.bmod 18446744073709551616

/-- `asr` (R7): the arithmetic right shift, `floor(x / 2^k)`. -/
def asr (x : Int) (k : Nat) : Int := x / ((2 ^ k : Nat) : Int)

/-- `shl32` (R8). -/
def shl32 (x : Int) (k : Nat) : Int := wrap32 (x * ((2 ^ k : Nat) : Int))

/-- `shl64` (R8). -/
def shl64 (x : Int) (k : Nat) : Int := wrap64 (x * ((2 ^ k : Nat) : Int))

/-- `sdiv64` (R9): division truncating toward zero, reduced by `wrap64`; the one quotient that does not fit is the
parameter `DIV_OVF` (log 10). The argument `_hb` keeps it from being evaluated at a divisor 0, as R9 says it never is. -/
def sdiv64 (a b : Int) (_hb : b ≠ 0) : Int :=
  if a = -9223372036854775808 ∧ b = -1 then Config.divOvf else wrap64 (a.tdiv b)

end Sys2Proof.Machine
end

