-- ==== Sys2Proof/Machine/Pressure.lean ====
section
/-!
DEFINITION. Machine/Pressure.lean: COMP_P (`43_pressure_compensation.md` R78 to R90), line by line after the pseudocode of
R78; each name of the pseudocode is a local name here. Total, and it reads nothing but its arguments (R86).
-/

namespace Sys2Proof.Machine

/-- `v` of COMP_P (R78). -/
def compPV (fine : Int) : Int := wrap64 (fine - 128000)

/-- `var2` (first) of COMP_P (R78). -/
def compPVar2 (fine : Int) (k : PressCoeffs) : Int :=
  let v := compPV fine
  let vv := wrap64 (v * v)
  let a1 := wrap64 (vv * k.p6)
  let a2 := shl64 (wrap64 (v * k.p5)) 17
  let a3 := shl64 k.p4 35
  wrap64 (wrap64 (a1 + a2) + a3)

/-- `pre` of COMP_P (R78): the product whose shift by 33 is `var1` (third). -/
def compPPre (fine : Int) (k : PressCoeffs) : Int :=
  let v := compPV fine
  let vv := wrap64 (v * v)
  let x := asr (wrap64 (vv * k.p3)) 8
  let y := shl64 (wrap64 (v * k.p2)) 12
  let u := wrap64 (x + y)
  let h := wrap64 (140737488355328 + u)
  wrap64 (h * k.p1)

/-- `var1` (third) of COMP_P (R78), the divisor. -/
def compPVar1 (fine : Int) (k : PressCoeffs) : Int := asr (compPPre fine k) 33

/-- `num` of COMP_P (R78), the dividend. -/
def compPNum (adcP : RawSample) (fine : Int) (k : PressCoeffs) : Int :=
  let p0 := 1048576 - (adcP.toNat : Int)
  let t := wrap64 (shl64 p0 31 - compPVar2 fine k)
  wrap64 (t * 3125)

/-- The steps of COMP_P after the division (R78): `P_Q8` from `q`. -/
def compPOut (q : Int) (k : PressCoeffs) : Int :=
  let g := asr q 13
  let c1 := asr (wrap64 (wrap64 (k.p9 * g) * g)) 25
  let c2 := asr (wrap64 (k.p8 * q)) 19
  let s := wrap64 (wrap64 (q + c1) + c2)
  wrap64 (asr s 8 + shl64 k.p7 4)

/-- COMP_P(adc_P, fine) (R78): `P_Q8`. When `var1` (third) is 0 it returns 0 at once, and nothing after the test is
evaluated (R82). -/
def compP (adcP : RawSample) (fine : Int) (k : PressCoeffs) : Int :=
  if h : compPVar1 fine k = 0 then 0
  else compPOut (sdiv64 (compPNum adcP fine k) (compPVar1 fine k) h) k

end Sys2Proof.Machine
end

