-- ==== Sys2Proof/Machine/Temperature.lean ====
section
/-!
DEFINITION. Machine/Temperature.lean: COMP_T (`42_temperature_compensation.md` R69 to R77), line by line after the
pseudocode of R69; each name of the pseudocode is a local name here. Total, and it reads nothing but its arguments (R74).
-/

namespace Sys2Proof.Machine

/-- `var1` of COMP_T (R69): `asr(wrap32((adc_T >> 3) - (T1 << 1)) * T2), 11)`. -/
def compTVar1 (adcT : RawSample) (k : TempCoeffs) : Int :=
  let x3 := asr adcT.toNat 3
  let t1x2 := shl32 k.t1 1
  let a := wrap32 (x3 - t1x2)
  let m := wrap32 (a * k.t2)
  asr m 11

/-- `var2` of COMP_T (R69): the shift by 12 comes before the product with `T3`, the shift by 14 after it (R72). -/
def compTVar2 (adcT : RawSample) (k : TempCoeffs) : Int :=
  let x4 := asr adcT.toNat 4
  let d := wrap32 (x4 - k.t1)
  let sq := wrap32 (d * d)
  let s := asr sq 12
  let m2 := wrap32 (s * k.t3)
  asr m2 14

/-- `fine` of COMP_T (R69). -/
def compTFine (adcT : RawSample) (k : TempCoeffs) : Int := wrap32 (compTVar1 adcT k + compTVar2 adcT k)

/-- `T_CENTI` of a fine temperature (R69, R73): hundredths of a degree Celsius. -/
def tCentiOf (fine : Int) : Int :=
  let f5 := wrap32 (fine * 5)
  asr (wrap32 (f5 + 128)) 8

/-- The two results of COMP_T (R69). -/
structure TempResult where
  fine : Int
  tCenti : Int
  deriving DecidableEq, Repr

/-- COMP_T(adc_T) (R69). -/
def compT (adcT : RawSample) (k : TempCoeffs) : TempResult :=
  let fine := compTFine adcT k
  ⟨fine, tCentiOf fine⟩

end Sys2Proof.Machine
end

