-- ==== Sys2Proof/Machine/Readings.lean ====
section
/-!
DEFINITION. Machine/Readings.lean: the commands READ_TEMPERATURE and READ_PRESSURE (`44_commands.md` R95, R96), and the
physical readings their values stand for (`30_encoding.md` R49).
-/

namespace Sys2Proof.Machine

/-- The temperature phase, steps 2 to 4 of READ_TEMPERATURE (R95): sample, COMP_T, `T_FINE <- fine`. Its result is
`T_CENTI`. READ_PRESSURE runs the same phase first (R96). -/
def tempPhase (s : State) : Except Fault (Flow Int) :=
  match sample Config.addrTempData s with
  | .done adcT s1 =>
    match s1.tempCoeffs with
    | .ok k => .ok (.done (compT adcT k).tCenti (s1.setTFine (compT adcT k).fine))
    | .error f => .error f
  | .raised e s1 => .ok (.raised e s1)
  | .hung s1 => .ok (.hung s1)

/-- The pressure phase, the last steps of READ_PRESSURE (R96): sample, then COMP_P with the content of `T_FINE`. Its
result is `P_Q8`. -/
def pressPhase (s : State) : Except Fault (Flow Int) :=
  match sample Config.addrPressureData s with
  | .done adcP s1 =>
    match s1.pressCoeffs with
    | .error f => .error f
    | .ok k =>
      match s1.readTFine with
      | .error f => .error f
      | .ok fine => .ok (.done (compP adcP fine k) s1)
  | .raised e s1 => .ok (.raised e s1)
  | .hung s1 => .ok (.hung s1)

/-- The steps of READ_PRESSURE after the state check (R96): the temperature phase with its Celsius result discarded, then
the pressure phase. -/
def readPressureSteps (s : State) : Except Fault (Flow Int) :=
  match tempPhase s with
  | .error f => .error f
  | .ok (.done _ s1) => pressPhase s1
  | .ok (.raised e s1) => .ok (.raised e s1)
  | .ok (.hung s1) => .ok (.hung s1)

/-- The end of a reading command: the response with the signed 64-bit value (R49), or a fault of the model (R22). -/
def finishReading (r : Except Fault (Flow Int)) : Host.Outcome State Fault Refusal :=
  match r with
  | .ok c => .next (c.finish fun n => BitVec.ofInt 64 n)
  | .error f => .fault f

/-- READ_TEMPERATURE (R95): responds `sext_64(T_CENTI)`. -/
def execReadTemperature (s : State) : Host.Outcome State Fault Refusal :=
  checked .readTemperature s (finishReading (tempPhase s))

/-- READ_PRESSURE (R96): responds `P_Q8`, 0 in the degenerate case (R82). -/
def execReadPressure (s : State) : Host.Outcome State Fault Refusal :=
  checked .readPressure s (finishReading (readPressureSteps s))

/-! ### Physical readings, outside the block (R49, R73, R85) -/

/-- The temperature a successful READ_TEMPERATURE stands for: the exact rational `value / 100` degrees Celsius (R73). -/
def Response.celsius (r : Response) : ℚ := (r.value.toInt : ℚ) / (Config.tempDivisor : ℚ)

/-- The pressure a successful READ_PRESSURE stands for: the exact rational `value / 256` pascals (R85; decision D8). -/
def Response.pascals (r : Response) : ℚ := (r.value.toInt : ℚ) / (Config.pressDivisor : ℚ)

/-- A reading in the OPEN floating-point format `FLOAT_FMT`, made by its final division: by `TEMP_DIVISOR` for a
temperature, by `PRESS_DIVISOR` for a pressure (R5, R73, R85; log 13). -/
def Response.inFloatFormat (r : Response) (divisor : Nat) : Config.FloatDatum := Config.floatFmt r.value.toInt divisor

end Sys2Proof.Machine
end

