-- ==== Sys2Proof/Machine/Dispatch.lean ====
section
/-!
DEFINITION. Machine/Dispatch.lean: one arm per command (`30_encoding.md` R47).
-/

namespace Sys2Proof.Machine

/-- The execution of one command as one transition (R11, R91). -/
def exec (i : Instr) (s : State) : Host.Outcome State Fault Refusal :=
  match i with
  | .begin => Sys2Proof.Machine.execBegin s
  | .readTemperature => Sys2Proof.Machine.execReadTemperature s
  | .readPressure => Sys2Proof.Machine.execReadPressure s
  | .reset => Sys2Proof.Machine.execReset s

end Sys2Proof.Machine
end

