-- ==== Sys2Proof/Machine/Step.lean ====
section
/-!
DEFINITION. Machine/Step.lean: one step of the machine: it takes the next input from outside, a command word or the
hardware reset. The block fetches nothing (`10_state.md` R18); its program is what the caller issues (log 5).
-/

namespace Sys2Proof.Machine

/-- One step. With no input the core does nothing (R12, R91), unless a transaction is outstanding: then it is stuck
(R131). A command word is decoded and executed to completion (R48); while a transaction is outstanding the port takes
none (R48, U14). The hardware reset is taken in any state (R122). -/
def step (s : State) : Host.Outcome State Fault Refusal :=
  match s.inputs with
  | [] =>
    match s.outstanding with
    | none => .next s
    | some _ => .fault .transportHang
  | .hardwareReset :: rest => .next { s with inputs := rest }.hardwareReset
  | .command w :: rest =>
    match s.outstanding with
    | none => exec (decode w) { s with inputs := rest }
    | some _ => .refused .portBusy

/-- The state in which the command that `decodeTableWord nbits w` reads is the next input, on a free port (log 5, log 19);
the state itself where that word is no command. -/
def State.withFetchWord (s : State) (nbits w : Nat) : State :=
  if nbits < 2 then s
  else
    match commandWordOf w with
    | some c => { s with inputs := .command c :: s.inputs, outstanding := none }
    | none => s

end Sys2Proof.Machine
end

