-- ==== Sys2Proof/Machine/Datapath.lean ====
section
/-!
DEFINITION. Machine/Datapath.lean: COMP_T and COMP_P once more, as fixed-width two's complement datapaths: every operand
widened first, then wrapping 32-bit or 64-bit arithmetic throughout (`42_temperature_compensation.md` R70, R71,
`43_pressure_compensation.md` R79, R80). `exec` does not use them; the claims compare them with the integer forms.
-/

namespace Sys2Proof.Machine

/-- `fine` on a signed 32-bit datapath (R69, R71). -/
def datapathFine (adcT : RawSample) (w1 w2 w3 : CalWord) : BitVec 32 :=
  let adc := adcT.setWidth 32
  let t1 : BitVec 32 := w1.setWidth 32
  let t2 : BitVec 32 := w2.signExtend 32
  let t3 : BitVec 32 := w3.signExtend 32
  let var1 := ((adc.sshiftRight 3 - t1 <<< 1) * t2).sshiftRight 11
  let d := adc.sshiftRight 4 - t1
  let var2 := ((d * d).sshiftRight 12 * t3).sshiftRight 14
  var1 + var2

/-- `T_CENTI` on a signed 32-bit datapath (R73). -/
def datapathTCenti (fine : BitVec 32) : BitVec 32 := (fine * 5#32 + 128#32).sshiftRight 8

/-- `var1` (third) on a signed 64-bit datapath (R78, R80). -/
def datapathVar1 (fine : Fine) (w1 w2 w3 : CalWord) : BitVec 64 :=
  let v := fine.signExtend 64 - 128000#64
  let p1 : BitVec 64 := w1.setWidth 64
  let p2 : BitVec 64 := w2.signExtend 64
  let p3 : BitVec 64 := w3.signExtend 64
  let u := (v * v * p3).sshiftRight 8 + (v * p2) <<< 12
  ((1#64 <<< 47 + u) * p1).sshiftRight 33

/-- `num` on a signed 64-bit datapath (R78, R80). -/
def datapathNum (adcP : RawSample) (fine : Fine) (w4 w5 w6 : CalWord) : BitVec 64 :=
  let v := fine.signExtend 64 - 128000#64
  let p4 : BitVec 64 := w4.signExtend 64
  let p5 : BitVec 64 := w5.signExtend 64
  let p6 : BitVec 64 := w6.signExtend 64
  let var2 := v * v * p6 + (v * p5) <<< 17 + p4 <<< 35
  let p : BitVec 64 := 1048576#64 - adcP.setWidth 64
  (p <<< 31 - var2) * 3125#64

/-- The steps after the division on a signed 64-bit datapath (R78, R80). -/
def datapathOut (q : BitVec 64) (w7 w8 w9 : CalWord) : BitVec 64 :=
  let p7 : BitVec 64 := w7.signExtend 64
  let p8 : BitVec 64 := w8.signExtend 64
  let p9 : BitVec 64 := w9.signExtend 64
  let g := q.sshiftRight 13
  let c1 := (p9 * g * g).sshiftRight 25
  let c2 := (p8 * q).sshiftRight 19
  (q + c1 + c2).sshiftRight 8 + p7 <<< 4

/-- `P_Q8` on a signed 64-bit datapath, with a truncating signed divider that is not used at a divisor 0 (R78, R82). -/
def datapathPQ8 (adcP : RawSample) (fine : Fine) (w1 w2 w3 w4 w5 w6 w7 w8 w9 : CalWord) : BitVec 64 :=
  let var1 := datapathVar1 fine w1 w2 w3
  if var1 = 0#64 then 0#64
  else datapathOut ((datapathNum adcP fine w4 w5 w6).sdiv var1) w7 w8 w9

end Sys2Proof.Machine
end

