-- ==== Sys2Proof/Machine/Fake.lean ====
section
/-!
DEFINITION. Machine/Fake.lean: the source's "deterministic in-memory fake" (`20_memory.md` R28): a collaborator backed by a
256-byte array, as a function that makes the answers. The array belongs to the collaborator, not to the core (R21).
-/

namespace Sys2Proof.Machine

/-- The answer of a fake that holds `image`: the bytes at `reg`, `reg+1`, `reg+2` (R30 to R32). Where these run past 0xFF
the spec is silent, and they wrap to 0x00 (DESIGN CHOICE, log 20); no address of the core does (R37). For `writeByte` and
`TpSetup` it succeeds, and no byte reaches the core. -/
def fakeAnswer (image : RegAddr → Byte) (q : TpRequest) : Answer :=
  match q.reg with
  | some r => .bytes (image r) (image (r + 1#8)) (image (r + 2#8))
  | none => .bytes 0#8 0#8 0#8

/-- The answers of that fake to a list of requests. -/
def fakeAnswers (image : RegAddr → Byte) (qs : List TpRequest) : List Answer := qs.map (fakeAnswer image)

/-- What the fake holds after a request: `writeByte` writes its byte (R33), nothing else changes it. -/
def fakeAfter (image : RegAddr → Byte) (q : TpRequest) : RegAddr → Byte :=
  match q with
  | .writeByte r v => fun a => if a = r then v else image a
  | .readByte _ => image
  | .readWord16LE _ => image
  | .read24 _ => image
  | .tpSetup => image

end Sys2Proof.Machine
end

