-- ==== Sys2Proof/Machine/DeviceMap.lean ====
section
/-!
DEFINITION. Machine/DeviceMap.lean: the register map of the device, as far as the source fixes it, and the trace of each
command (`20_memory.md` R41, `44_commands.md` R101).
-/

namespace Sys2Proof.Machine

/-- How the core uses a row of the map. -/
inductive CoreAccess where
  | readByCore
  | writtenByCore
  | neverAccessed
  deriving DecidableEq, Repr

/-- One row of the map (R41). -/
structure DeviceRow where
  name : String
  first : RegAddr
  bytes : Nat
  access : CoreAccess
  deriving DecidableEq, Repr

/-- The register map (R41). -/
def deviceMap : List DeviceRow :=
  [⟨"DIG_T1..DIG_P9", 0x88#8, 24, .readByCore⟩,
   ⟨"CHIP_ID", 0xD0#8, 1, .readByCore⟩,
   ⟨"SOFT_RESET", 0xE0#8, 1, .writtenByCore⟩,
   ⟨"STATUS", 0xF3#8, 1, .neverAccessed⟩,
   ⟨"CTRL_MEAS", 0xF4#8, 1, .neverAccessed⟩,
   ⟨"CONFIG", 0xF5#8, 1, .neverAccessed⟩,
   ⟨"PRESSURE_DATA", 0xF7#8, 3, .readByCore⟩,
   ⟨"TEMP_DATA", 0xFA#8, 3, .readByCore⟩]

/-- An address lies in a row. -/
def DeviceRow.holds (row : DeviceRow) (a : Nat) : Bool :=
  decide (row.first.toNat ≤ a ∧ a < row.first.toNat + row.bytes)

/-- Every byte a request moves lies in a row with that access. Addresses are counted without a wrap, so a read that runs
past 0xFF lies in no row (DESIGN CHOICE, log 20). -/
def TpRequest.within (q : TpRequest) (access : CoreAccess) : Bool :=
  match q.reg with
  | none => true
  | some r =>
    deviceMap.any fun row =>
      row.access == access && row.holds r.toNat && row.holds (r.toNat + q.bytesMoved - 1)

/-- The twelve reads of CAL_LOAD (R101). -/
def calTrace : List TpRequest := Coeff.all.map fun c => .readWord16LE c.addr

/-- The requests of a command on its success path, in issue order (R101). -/
def successTrace (chipIdCheck : Bool) (i : Instr) : List TpRequest :=
  match i with
  | .begin => .tpSetup :: (if chipIdCheck then .readByte Config.addrChipId :: calTrace else calTrace)
  | .readTemperature => [.read24 Config.addrTempData]
  | .readPressure => [.read24 Config.addrTempData, .read24 Config.addrPressureData]
  | .reset => [.writeByte Config.addrSoftReset Config.softResetValue]

end Sys2Proof.Machine
end

