-- ==== Sys2Proof/Safety.lean ====
section
/-!
DEFINITION. Safety.lean: what a good state is, in the terms the claims use. Each predicate is one promise the spec makes
about every state a run reaches.
-/

namespace Sys2Proof.Machine

/-- The temperature sample an event delivered, if it is a successful burst read of TEMP_DATA (R66, R95). -/
def TpEvent.tempSample (e : TpEvent) : Option RawSample :=
  match e.request, e.reply with
  | .read24 r, some (.data w) => if r = Config.addrTempData then some (sampleOf w) else none
  | _, _ => none

/-- The most recent temperature sample read (R97 (d)). -/
def lastTempSample (trace : List TpEvent) : Option RawSample := (trace.filterMap TpEvent.tempSample).getLast?

/-- R15, R22, R100: in `Ready` every coefficient register holds a value; in `Uninitialized` no register does. -/
structure State.Lifecycle (s : State) : Prop where
  ready_has_cal : s.control = .ready → ∀ c, (s.coeff c).isSome
  uninitialized_is_empty : s.control = .uninitialized → s.cal = CalStore.none ∧ s.tFine = none

/-- R16, R75, R88: what `T_FINE` holds lies between −1179648 and 1179646. -/
def State.FineInRange (s : State) : Prop :=
  ∀ f, s.tFine = some f → -1179648 ≤ f.toInt ∧ f.toInt ≤ 1179646

/-- R97 (d): what `T_FINE` holds is the fine temperature of the most recent temperature sample read, under the
coefficients the store holds. -/
def State.FineIsFresh (s : State) : Prop :=
  ∀ f, s.tFine = some f → ∃ adcT w1 w2 w3,
    lastTempSample s.trace = some adcT ∧ s.coeff .T1 = some w1 ∧ s.coeff .T2 = some w2 ∧ s.coeff .T3 = some w3 ∧
    f.toInt = (compT adcT (.ofWords w1 w2 w3)).fine

/-- R33, R38, R41: the collaborator has seen only requests the core issues. -/
def State.OnlyIssued (s : State) : Prop := ∀ e ∈ s.trace, e.request.issuedByCore

/-- R29, R131: an outstanding transaction is the last one issued, and it has no reply. -/
def State.OutstandingIsLast (s : State) : Prop :=
  ∀ q, s.outstanding = some q → s.trace.getLast? = some ⟨q, none⟩

/-- R49, R91: every response whose status is not `OK` has the value 0. -/
def State.ErrorsCarryNoValue (s : State) : Prop := ∀ r ∈ s.responses, r.status ≠ .ok → r.value = 0#64

/-- All of them together. -/
structure State.Good (s : State) : Prop where
  lifecycle : s.Lifecycle
  fine_in_range : s.FineInRange
  fine_is_fresh : s.FineIsFresh
  only_issued : s.OnlyIssued
  outstanding_is_last : s.OutstandingIsLast
  errors_carry_no_value : s.ErrorsCarryNoValue

end Sys2Proof.Machine
end

