-- ==== Sys2Proof/Certificates/Slice0/Obligations.lean ====
section
/-!
DEFINITION. Obligations.lean: what is claimed of the model, one `def Obligations.<Name> : Prop` each. Where a clause rests on
the spec's own decision (D<n>) or on a choice of the model (log <n>), the docstring says so.
-/

open Sys2Proof Sys2Proof.Machine

/-! ## Encodings -/

/-- The four command words of R47 (the numeric codes are the spec's own decision D2), decoded, encoded, and read as
spec/opcode_table.json numbers them. That a word is numbered in 8 bits, and that the number 4 is then no command word, is
the model's choice (the framing, log 9). -/
def Obligations.CommandWordsDecodeAsTabled : Prop :=
  decode 0b00#2 = .begin ∧ decode 0b01#2 = .readTemperature ∧ decode 0b10#2 = .readPressure ∧ decode 0b11#2 = .reset ∧
  encode .begin = 0b00#2 ∧ encode .readTemperature = 0b01#2 ∧ encode .readPressure = 0b10#2 ∧ encode .reset = 0b11#2 ∧
  decodeTableWord 8 0 = some .begin ∧ decodeTableWord 8 1 = some .readTemperature ∧
  decodeTableWord 8 2 = some .readPressure ∧ decodeTableWord 8 3 = some .reset ∧ decodeTableWord 8 4 = none

/-- The command decoder is total and no word is unassigned (R55; decision D2): words and commands correspond one to
one, each command has the two written forms of R57 (decision D31), and each form names it and no other. -/
def Obligations.CommandWordsAndCommandsCorrespond : Prop :=
  (∀ i, decode (encode i) = i) ∧ (∀ w, encode (decode w) = w) ∧
  (∀ i, Instr.ofWritten i.mnemonic = some i ∧ Instr.ofWritten i.sourceName = some i) ∧
  Instr.begin.mnemonic = "BEGIN" ∧ Instr.readTemperature.mnemonic = "READ_TEMPERATURE" ∧
  Instr.readPressure.mnemonic = "READ_PRESSURE" ∧ Instr.reset.mnemonic = "RESET" ∧
  Instr.begin.sourceName = "begin()" ∧ Instr.readTemperature.sourceName = "readTemperature()" ∧
  Instr.readPressure.sourceName = "readPressure()" ∧ Instr.reset.sourceName = "reset()" ∧
  ∀ i t, Instr.ofWritten t = some i → t = i.mnemonic ∨ t = i.sourceName

/-- A program is the list of its command words in order (R57), one byte a word (the framing is the model's choice,
log 9): bytes decode to a program exactly when they are its encoding. -/
def Obligations.ProgramBytesRoundTrip : Prop :=
  ∀ (bs : List Byte) (p : List Instr), decodeProgram bs = .ok p ↔ bs = encodeProgram p

/-- The first byte that is no 2-bit command word stops the program decoder, and the refusal names that byte (the framing
is the model's choice, log 9). -/
def Obligations.NonCommandByteIsRejectedByName : Prop :=
  ∀ (p : List Instr) (b : Byte) (rest : List Byte), commandByteWf b = false →
    decodeProgram (encodeProgram p ++ b :: rest) = .error (.notACommandWord b)

/-- The response record (R49, R50; decisions D3, D4): `status` in bits 65:64 with its code, `value` in bits 63:0, nothing
lost either way. -/
def Obligations.ResponseRecordLayout : Prop :=
  (∀ r : Response, r.encode.extractLsb' 64 2 = r.status.code ∧ r.encode.extractLsb' 0 64 = r.value ∧
    Response.decode r.encode = r) ∧
  (∀ w : BitVec 66, (Response.decode w).encode = w) ∧
  Status.code .ok = 0b00#2 ∧ Status.code .errState = 0b01#2 ∧ Status.code .errChipId = 0b10#2 ∧
  Status.code .errTransport = 0b11#2

/-- The transport request record (R51; the codes are the spec's own decision D5): the five assigned codes, every request
read back from its fields, whatever stands in a field it ignores, and the codes 101 to 111 are no request (U10). -/
def Obligations.TransportRequestRecord : Prop :=
  (∀ (r : RegAddr) (v : Byte),
    (TpRequest.readByte r).tpOp = 0b000#3 ∧ (TpRequest.readWord16LE r).tpOp = 0b001#3 ∧
    (TpRequest.read24 r).tpOp = 0b010#3 ∧ (TpRequest.writeByte r v).tpOp = 0b011#3 ∧ TpRequest.tpSetup.tpOp = 0b100#3) ∧
  (∀ (r : RegAddr) (v : Byte),
    (TpRequest.readByte r).reg = some r ∧ (TpRequest.readWord16LE r).reg = some r ∧ (TpRequest.read24 r).reg = some r ∧
    (TpRequest.writeByte r v).reg = some r ∧ TpRequest.tpSetup.reg = none ∧
    (TpRequest.writeByte r v).wdata = some v) ∧
  (∀ (q : TpRequest) (r : RegAddr) (v : Byte),
    TpRequest.ofRecord q.tpOp (q.reg.getD r) (q.wdata.getD v) = some q) ∧
  ∀ (r : RegAddr) (v : Byte), TpRequest.ofRecord 0b101#3 r v = none ∧ TpRequest.ofRecord 0b110#3 r v = none ∧
    TpRequest.ofRecord 0b111#3 r v = none

/-- The reply data of each primitive as a number (R30 to R34, R52): little-endian words and big-endian bursts (what the
terms mean by address is the spec's general knowledge G4), and the unused upper bits 0 (decision D5). -/
def Obligations.ReplyDataIsAssembledInByteOrder : Prop :=
  ∀ (r : RegAddr) (v b0 b1 b2 : Byte),
    ((TpRequest.readByte r).assemble b0 b1 b2).toNat = b0.toNat ∧
    ((TpRequest.readWord16LE r).assemble b0 b1 b2).toNat = b0.toNat + 256 * b1.toNat ∧
    ((TpRequest.read24 r).assemble b0 b1 b2).toNat = 65536 * b0.toNat + 256 * b1.toNat + b2.toNat ∧
    ((TpRequest.writeByte r v).assemble b0 b1 b2).toNat = 0 ∧ (TpRequest.tpSetup.assemble b0 b1 b2).toNat = 0

/-! ## Data formats -/

/-- R54, whole: for every burst, whatever the answer and whichever the data register, SAMPLE gives the 20-bit unsigned
number `w[23:4]`, in bytes `4096*b0 + 16*b1 + floor(b2/16)`, and `w[3:0]` is discarded whatever it holds. -/
def Obligations.SampleFormat : Prop :=
  (∀ w : Burst, (sampleOf w).toNat = w.toNat / 16 ∧ (sampleOf w).toNat ≤ 1048575 ∧ sampleOf w = w.extractLsb' 4 20) ∧
  (∀ w w' : Burst, w.toNat / 16 = w'.toNat / 16 → sampleOf w = sampleOf w') ∧
  ∀ (s : State) (reg : RegAddr) (b0 b1 b2 : Byte), s.nextAnswer.1 = .bytes b0 b1 b2 →
    ∃ a t, sample reg s = .done a t ∧ a.toNat = 4096 * b0.toNat + 16 * b1.toNat + b2.toNat / 16

/-- R67, whole: the low four bits of the third byte never reach the sample and are not tested, the top bit is data, and
every burst is accepted. -/
def Obligations.SampleDropsTheLowNibble : Prop :=
  (∀ (s s' : State) (reg : RegAddr) (b0 b1 b2 b2' : Byte), s.nextAnswer.1 = .bytes b0 b1 b2 →
    s'.nextAnswer.1 = .bytes b0 b1 b2' → b2.extractLsb' 4 4 = b2'.extractLsb' 4 4 →
    ∃ a t t', sample reg s = .done a t ∧ sample reg s' = .done a t') ∧
  sampleOf 0x655AC0#24 = 415148#20 ∧ sampleOf 0x655ACF#24 = 415148#20 ∧
  (sampleOf 0xFFFFFF#24).toNat = 1048575 ∧ (sampleOf 0x800000#24).toNat = 524288

/-- R53, whole: a calibration word is two bytes, low byte first; its pattern is stored unchanged; `T1` and `P1` read as
unsigned, the ten others as two's complement. -/
def Obligations.CalibrationWordReading : Prop :=
  (∀ (s : State) (reg : RegAddr) (b0 b1 b2 : Byte), s.nextAnswer.1 = .bytes b0 b1 b2 →
    ∃ w t, readWord16LE reg s = .done w t ∧ w = b1 ++ b0) ∧
  (∀ (cal : CalStore) (c : Coeff) (w : CalWord), (cal.write c w)[c.index] = some w) ∧
  (∀ (c : Coeff) (w : CalWord),
    (c = .T1 ∨ c = .P1 → c.value w = w.toNat ∧ 0 ≤ c.value w ∧ c.value w ≤ 65535) ∧
    (c ≠ .T1 → c ≠ .P1 → c.value w = w.toInt ∧ -32768 ≤ c.value w ∧ c.value w ≤ 32767)) ∧
  Coeff.T3.value 0xFC18#16 = -1000 ∧ Coeff.T3.value 0xFFFF#16 = -1 ∧ Coeff.T3.value 0x8000#16 = -32768

/-! ## Arithmetic -/

/-- R6: `wrap32` and `wrap64` give the unique representative in range, and (the spec's own derivation) wrapping early or
late inside sums, differences and products makes no difference. -/
def Obligations.WrapIsTheUniqueRepresentative : Prop :=
  (∀ x y : Int, wrap32 x = y ↔ -2 ^ 31 ≤ y ∧ y < 2 ^ 31 ∧ (2 ^ 32 : Int) ∣ x - y) ∧
  (∀ x y : Int, wrap64 x = y ↔ -2 ^ 63 ≤ y ∧ y < 2 ^ 63 ∧ (2 ^ 64 : Int) ∣ x - y) ∧
  (∀ x y z : Int, wrap32 (wrap32 (wrap32 x * wrap32 y) + wrap32 z) = wrap32 (x * y + z) ∧
    wrap32 (wrap32 x - wrap32 y) = wrap32 (x - y)) ∧
  ∀ x y z : Int, wrap64 (wrap64 (wrap64 x * wrap64 y) + wrap64 z) = wrap64 (x * y + z) ∧
    wrap64 (wrap64 x - wrap64 y) = wrap64 (x - y)

/-- R7: `asr` rounds toward minus infinity, keeps a 32-bit or 64-bit number in range, and has the rule's two examples. -/
def Obligations.ArithmeticShiftRoundsDown : Prop :=
  (∀ (x : Int) (k : Nat), asr x k * 2 ^ k ≤ x ∧ x < (asr x k + 1) * 2 ^ k) ∧
  (∀ (x : Int) (k : Nat), -2 ^ 31 ≤ x → x < 2 ^ 31 → -2 ^ 31 ≤ asr x k ∧ asr x k < 2 ^ 31) ∧
  (∀ (x : Int) (k : Nat), -2 ^ 63 ≤ x → x < 2 ^ 63 → -2 ^ 63 ≤ asr x k ∧ asr x k < 2 ^ 63) ∧
  (∀ k : Nat, asr (-1) k = -1) ∧ asr (-6076000) 14 = -371

/-- R8: a left shift multiplies by a power of two and wraps, which (the spec's own derivation) is shifting the two's
complement pattern and dropping what is shifted out. -/
def Obligations.LeftShiftIsThePatternShift : Prop :=
  (∀ (x : Int) (k : Nat), shl32 x k = wrap32 (x * 2 ^ k) ∧
    shl32 x k = (BitVec.ofInt 32 x <<< k).toInt) ∧
  (∀ (x : Int) (k : Nat), shl64 x k = wrap64 (x * 2 ^ k) ∧
    shl64 x k = (BitVec.ofInt 64 x <<< k).toInt) ∧
  shl64 (-7) 35 = -240518168576

/-- R9: the quotient truncates toward zero at every sign of the operands; the one pair that does not fit gives
`DIV_OVF` = −2^63 (the spec's own choice D18, log 10). -/
def Obligations.DivisionTruncatesTowardZero : Prop :=
  (∀ (a b : Int) (hb : b ≠ 0), -2 ^ 63 ≤ a → a < 2 ^ 63 → -2 ^ 63 ≤ b → b < 2 ^ 63 → ¬(a = -2 ^ 63 ∧ b = -1) →
    sdiv64 a b hb = a.sign * b.sign * ((a.natAbs / b.natAbs : Nat) : Int)) ∧
  (∀ hb : (-1 : Int) ≠ 0, sdiv64 (-2 ^ 63) (-1) hb = -2 ^ 63) ∧
  (∀ (h2 : (2 : Int) ≠ 0) (h2' : (-2 : Int) ≠ 0), sdiv64 7 2 h2 = 3 ∧ sdiv64 (-7) 2 h2 = -3 ∧ sdiv64 7 (-2) h2' = -3 ∧
    sdiv64 (-7) (-2) h2' = 3)

/-! ## Temperature compensation -/

/-- The source's one worked example (R69, `95_test_vectors.md` E1): `fine` = 128422 and 25.08 degrees Celsius. -/
def Obligations.TemperatureWorkedExample : Prop :=
  compT 519888#20 (.ofWords 0x6B70#16 0x6743#16 0xFC18#16) = ⟨128422, 2508⟩ ∧
  compTVar1 519888#20 (.ofWords 0x6B70#16 0x6743#16 0xFC18#16) = 128793 ∧
  compTVar2 519888#20 (.ofWords 0x6B70#16 0x6743#16 0xFC18#16) = -371

/-- R75 (the spec's own derivation): for every sample and all coefficients the results stay in range, and the sum, the
product by 5 and the addition of 128 never wrap. -/
def Obligations.TemperatureStaysInRange : Prop :=
  ∀ (a : RawSample) (k : TempCoeffs),
    (-1048576 ≤ compTVar1 a k ∧ compTVar1 a k ≤ 1048575) ∧ (-131072 ≤ compTVar2 a k ∧ compTVar2 a k ≤ 131071) ∧
    (compT a k).fine = compTVar1 a k + compTVar2 a k ∧
    (-1179648 ≤ (compT a k).fine ∧ (compT a k).fine ≤ 1179646) ∧
    wrap32 ((compT a k).fine * 5) = (compT a k).fine * 5 ∧
    wrap32 ((compT a k).fine * 5 + 128) = (compT a k).fine * 5 + 128 ∧
    (-23040 ≤ (compT a k).tCenti ∧ (compT a k).tCenti ≤ 23040)

/-- R71, R69 (the spec's own derivation): only the three products of COMP_T can wrap. The shift of `T1`, the two
differences `a` and `d`, the sum of `var1` and `var2`, the product by 5 and the addition of 128 never do, each stated of
the model's own expression; with them exact, `var1` and `var2` are what the three wrapping products give; and the square
is negative exactly from `|d| = 46341` on. -/
def Obligations.TemperatureWrapsOnlyInProducts : Prop :=
  (∀ (a : RawSample) (w1 w2 w3 : CalWord),
    let k := TempCoeffs.ofWords w1 w2 w3
    shl32 k.t1 1 = 2 * (w1.toNat : Int) ∧
    wrap32 (asr a.toNat 3 - shl32 k.t1 1) = (a.toNat / 8 : Nat) - 2 * (w1.toNat : Int) ∧
    wrap32 (asr a.toNat 4 - k.t1) = (a.toNat / 16 : Nat) - (w1.toNat : Int) ∧
    compTVar1 a k = asr (wrap32 (((a.toNat / 8 : Nat) - 2 * (w1.toNat : Int)) * w2.toInt)) 11 ∧
    compTVar2 a k = asr (wrap32 (asr (wrap32 (((a.toNat / 16 : Nat) - (w1.toNat : Int)) ^ 2)) 12 * w3.toInt)) 14 ∧
    (compT a k).fine = compTVar1 a k + compTVar2 a k ∧
    wrap32 ((compT a k).fine * 5) = (compT a k).fine * 5 ∧
    (compT a k).tCenti = asr ((compT a k).fine * 5 + 128) 8) ∧
  ∀ d : Int, -65535 ≤ d → d ≤ 65535 → (wrap32 (d * d) < 0 ↔ d ≤ -46341 ∨ 46341 ≤ d)

/-- R70 (the spec's own derivation): bits 2:0 of the sample affect nothing, and bits 3:0 do not affect `var2`. -/
def Obligations.TemperatureIgnoresLowSampleBits : Prop :=
  (∀ (a a' : RawSample) (k : TempCoeffs), a.extractLsb' 3 17 = a'.extractLsb' 3 17 → compT a k = compT a' k) ∧
  ∀ (a a' : RawSample) (k : TempCoeffs), a.extractLsb' 4 16 = a'.extractLsb' 4 16 → compTVar2 a k = compTVar2 a' k

/-- R73: `T_CENTI` is `fine*5/256` rounded to the nearest integer, ties upward (the rounding is the spec's own
derivation), for every `fine` that `T_FINE` can hold. -/
def Obligations.CentiRoundsToNearest : Prop :=
  ∀ fine : Int, -1179648 ≤ fine → fine ≤ 1179646 →
    2 * fine * 5 - 256 < 2 * 256 * tCentiOf fine ∧ 2 * 256 * tCentiOf fine ≤ 2 * fine * 5 + 256

/-- COMP_T in explicit integers is COMP_T on a signed 32-bit two's complement datapath, for every sample and every three
words (R69 to R71, R73). -/
def Obligations.TemperatureMatchesTheDatapath : Prop :=
  ∀ (a : RawSample) (w1 w2 w3 : CalWord),
    (compT a (.ofWords w1 w2 w3)).fine = (datapathFine a w1 w2 w3).toInt ∧
    (compT a (.ofWords w1 w2 w3)).tCenti = (datapathTCenti (datapathFine a w1 w2 w3)).toInt

/-! ## Pressure compensation -/

/-- Vectors of `95_test_vectors.md` Part 6 (derived from R78): the realistic set (P1), a negative dividend (P3), a
negative divisor (P20) and an input outside the reachable range where many steps wrap (P22). -/
def Obligations.PressureVectors : Prop :=
  compP 415148#20 128422 ⟨36477, -10685, 3024, 2855, 140, -7, 15500, -14600, 6000⟩ = 25767233 ∧
  compP 1048575#20 128422 ⟨36477, -10685, 3024, 2855, 140, -7, 15500, -14600, 6000⟩ = -1697504 ∧
  compP 415148#20 1176576 ⟨1, -32768, -1, 0, 0, 0, 0, 0, 0⟩ = -16604934963200000 ∧
  compP 0#20 2147483647 ⟨65535, 32767, 32767, 32767, 32767, 32767, 32767, 32767, 32767⟩ = -25026833

/-- R82, R83: the degenerate test is on the shifted product, so it is taken exactly when `0 ≤ pre < 2^33` (the spec's
own derivation); then the result is 0 whatever the sample; `P1 = 0` is one such case; a `pre` just below 0 is not; and the
divisor stays within −2^30 and 2^30 − 1. -/
def Obligations.DegenerateTestIsOnTheShiftedProduct : Prop :=
  ∀ (fine : Int) (k : PressCoeffs),
    (compPVar1 fine k = 0 ↔ 0 ≤ compPPre fine k ∧ compPPre fine k < 2 ^ 33) ∧
    (compPVar1 fine k = 0 → ∀ a : RawSample, compP a fine k = 0) ∧
    (k.p1 = 0 → compPVar1 fine k = 0) ∧
    (-2 ^ 33 ≤ compPPre fine k → compPPre fine k ≤ -1 → compPVar1 fine k = -1) ∧
    (-2 ^ 30 ≤ compPVar1 fine k ∧ compPVar1 fine k ≤ 2 ^ 30 - 1)

/-- COMP_P in explicit integers is COMP_P on a signed 64-bit two's complement datapath with a truncating divider, for
every sample, every 32-bit fine temperature and every nine words (R78 to R80, R83). At the one overflowing quotient both
give −2^63 (decision D18, log 10). -/
def Obligations.PressureMatchesTheDatapath : Prop :=
  ∀ (a : RawSample) (f : Fine) (w1 w2 w3 w4 w5 w6 w7 w8 w9 : CalWord),
    compP a f.toInt (.ofWords w1 w2 w3 w4 w5 w6 w7 w8 w9) = (datapathPQ8 a f w1 w2 w3 w4 w5 w6 w7 w8 w9).toInt

/-- R84, R87 (the spec's own derivation): for every fine temperature that `T_FINE` can hold, `var2` stays within
62773627090632704 in magnitude, and the dividend is never −2^63, so `DIV_OVF` never matters. -/
def Obligations.DivisionOverflowIsUnreachable : Prop :=
  ∀ (a : RawSample) (fine : Int) (w1 w2 w3 w4 w5 w6 w7 w8 w9 : CalWord), -1179648 ≤ fine → fine ≤ 1179646 →
    let k := PressCoeffs.ofWords w1 w2 w3 w4 w5 w6 w7 w8 w9
    (-62773627090632704 ≤ compPVar2 fine k ∧ compPVar2 fine k ≤ 62773627090632704) ∧ compPNum a fine k ≠ -2 ^ 63

/-- R89 (f) (the spec's own derivation): at `fine` = 128000 the divisor is `16384 * P1` and `var2` is `P4 << 35`, so the
pressure depends only on the sample, `P1`, `P4`, `P7`, `P8` and `P9`. -/
def Obligations.PressureAtTheReferenceFine : Prop :=
  (∀ w1 w2 w3 w4 w5 w6 w7 w8 w9 : CalWord,
    let k := PressCoeffs.ofWords w1 w2 w3 w4 w5 w6 w7 w8 w9
    compPVar1 128000 k = 16384 * (w1.toNat : Int) ∧ compPVar2 128000 k = w4.toInt * 2 ^ 35) ∧
  ∀ (a : RawSample) (k k' : PressCoeffs), k.p1 = k'.p1 → k.p4 = k'.p4 → k.p7 = k'.p7 → k.p8 = k'.p8 → k.p9 = k'.p9 →
    compP a 128000 k = compP a 128000 k'

/-! ## Reset, outputs, readings -/

/-- R25 (for `cal` and `T_FINE` the spec's own decision D17): after the hardware reset the block is `Uninitialized`, no
register holds a value, and the outputs of R26 say so (decision D19; the code 0 of `Uninitialized` is decision D26, both
log 11). That the trace is empty in `State.reset` is the model's choice (log 3). -/
def Obligations.ResetStateHoldsNoValue : Prop :=
  State.reset.control = .uninitialized ∧ (∀ c, State.reset.coeff c = none) ∧ State.reset.tFine = none ∧
  State.reset.outstanding = none ∧ State.reset.trace = [] ∧ State.reset.stateQ = 0#1 ∧ State.reset.tFineValid = 0#1

/-- R122 (the spec's own decision D17; that the reset is an input of its own is log 7, taken from the list of log 5):
the hardware reset is taken in any state, a hang included; it issues no transaction and produces no response. That it
keeps what was observed and what is still to be answered is the model's choice (log 3). -/
def Obligations.HardwareResetFromAnyState : Prop :=
  ∀ (s : State) (rest : List Input), s.inputs = .hardwareReset :: rest →
    step s = .next { s with control := .uninitialized, cal := CalStore.none, tFine := none, outstanding := none,
                            inputs := rest }

/-- R26 (the spec's own decision D19): `state_q` is the control state, 1 for `Ready` and 0 for `Uninitialized` (the
codes are decision D26 of R17; D19 and D26 are in log 11), `t_fine_valid` is 0 exactly when `T_FINE` holds no value, and
`t_fine_q` is its content. -/
def Obligations.StatusOutputsShowTheState : Prop :=
  ∀ s : State, (s.stateQ = 1#1 ↔ s.control = .ready) ∧ (s.stateQ = 0#1 ↔ s.control = .uninitialized) ∧
    (s.tFineValid = 0#1 ↔ s.tFine = none) ∧ ∀ f, s.tFineQ = some f ↔ s.tFine = some f

/-- R49, R73, R85: the reading a value stands for is the exact rational, hundredths of a degree or 1/256 pascal (the
units are decisions D7 and D8), for every number a response can carry. -/
def Obligations.ReadingsAreExactRationals : Prop :=
  (∀ n : Int, -2 ^ 63 ≤ n → n < 2 ^ 63 →
    (Response.mk .ok (BitVec.ofInt 64 n)).celsius = (n : ℚ) / 100 ∧
    (Response.mk .ok (BitVec.ofInt 64 n)).pascals = (n : ℚ) / 256) ∧
  (Response.mk .ok (BitVec.ofInt 64 25767233)).pascals = 100653.25390625

/-! ## BEGIN -/

/-- R92 with R94 and R99 (a) (for BEGIN and RESET the spec's own decisions D13, D14): a command in a state where it is
not valid answers `ERR_STATE` with the value 0 (D20), issues no transaction and changes nothing. -/
def Obligations.RefusedCommandChangesNothing : Prop :=
  ∀ (i : Instr) (s : State),
    (i = .begin ∧ s.control = .ready ∨ i ≠ .begin ∧ s.control = .uninitialized) →
    exec i s = .next { s with responses := s.responses ++ [⟨.errState, 0#64⟩] }

/-- R93, R59, R60, R101, the success path of BEGIN: with the setup, the identity byte (if it is checked) and the twelve
words answered, by the script or past it (log 2), BEGIN completes in `Ready` with the twelve words in the store, low
byte first, `T_FINE` without a value (by an explicit write, log 16), `(OK, 0)` (D20), and exactly the tabled
transactions (their order is decision D11, the setup D10). -/
def Obligations.BeginLoadsTheTwelveWords : Prop :=
  ∀ (s : State) (m : Nat) (u0 u1 u2 id i1 i2 : Byte) (lo hi ex : Coeff → Byte),
    s.control = .uninitialized → m = (if s.params.chipIdCheck then 2 else 1) →
    s.answerAt 0 = .bytes u0 u1 u2 →
    (s.params.chipIdCheck = true → s.answerAt 1 = .bytes id i1 i2 ∧ id = s.params.expectedChipId) →
    (∀ c : Coeff, s.answerAt (m + c.index.val) = .bytes (lo c) (hi c) (ex c)) →
    ∃ (cal : CalStore) (es : List TpEvent),
      exec .begin s = .next { s with
        control := .ready
        cal := cal
        tFine := none
        answers := s.answers.drop (m + 12)
        drawn := s.drawn + (m + 12 - s.answers.length)
        trace := s.trace ++ es
        responses := s.responses ++ [⟨.ok, 0#64⟩] } ∧
      (∀ c, cal[c.index] = some (hi c ++ lo c)) ∧
      es.map TpEvent.request = .tpSetup :: ((if s.params.chipIdCheck then [.readByte 0xD0#8] else []) ++
        [.readWord16LE 0x88#8, .readWord16LE 0x8A#8, .readWord16LE 0x8C#8, .readWord16LE 0x8E#8, .readWord16LE 0x90#8,
         .readWord16LE 0x92#8, .readWord16LE 0x94#8, .readWord16LE 0x96#8, .readWord16LE 0x98#8, .readWord16LE 0x9A#8,
         .readWord16LE 0x9C#8, .readWord16LE 0x9E#8]) ∧
      ∀ e ∈ es, ∃ d, e.reply = some (.data d)

/-- R31, R41, R59 by address: BEGIN whose transactions are answered as the in-memory fake of R28 answers them (log 14),
by the script or past it, loads each coefficient from its two device bytes, the low byte at the lower address (what
little-endian means by address is the spec's general knowledge G4). -/
def Obligations.BeginOnTheInMemoryFake : Prop :=
  ∀ (s : State) (image : RegAddr → Byte),
    s.control = .uninitialized →
    (∀ (j : Nat) (q : TpRequest), (successTrace s.params.chipIdCheck .begin)[j]? = some q →
      s.answerAt j = fakeAnswer image q) →
    (s.params.chipIdCheck = true → image 0xD0#8 = s.params.expectedChipId) →
    ∃ t, exec .begin s = .next t ∧ t.control = .ready ∧
      t.answers = s.answers.drop (successTrace s.params.chipIdCheck .begin).length ∧
      t.coeff .T1 = some (image 0x89#8 ++ image 0x88#8) ∧ t.coeff .T2 = some (image 0x8B#8 ++ image 0x8A#8) ∧
      t.coeff .T3 = some (image 0x8D#8 ++ image 0x8C#8) ∧ t.coeff .P1 = some (image 0x8F#8 ++ image 0x8E#8) ∧
      t.coeff .P2 = some (image 0x91#8 ++ image 0x90#8) ∧ t.coeff .P3 = some (image 0x93#8 ++ image 0x92#8) ∧
      t.coeff .P4 = some (image 0x95#8 ++ image 0x94#8) ∧ t.coeff .P5 = some (image 0x97#8 ++ image 0x96#8) ∧
      t.coeff .P6 = some (image 0x99#8 ++ image 0x98#8) ∧ t.coeff .P7 = some (image 0x9B#8 ++ image 0x9A#8) ∧
      t.coeff .P8 = some (image 0x9D#8 ++ image 0x9C#8) ∧ t.coeff .P9 = some (image 0x9F#8 ++ image 0x9E#8)

/-- R93, R107, R108, R111: BEGIN whose setup fails, whose identity read fails, or whose identity byte differs answers the
error at that step, reads no calibration word, and changes no register (the setup step is decision D10, the value 0
decision D20), wherever the answers come from (log 2). -/
def Obligations.BeginStopsBeforeTheCalibrationReads : Prop :=
  ∀ (s : State) (u0 u1 u2 id i1 i2 : Byte), s.control = .uninitialized →
    (s.answerAt 0 = .fail →
      exec .begin s = .next { s.nextAnswer.2 with
        trace := s.trace ++ [⟨.tpSetup, some .failure⟩]
        responses := s.responses ++ [⟨.errTransport, 0#64⟩] }) ∧
    (s.params.chipIdCheck = true → s.answerAt 0 = .bytes u0 u1 u2 → s.answerAt 1 = .fail →
      exec .begin s = .next { s with
        answers := s.answers.drop 2
        drawn := s.drawn + (2 - s.answers.length)
        trace := s.trace ++ [⟨.tpSetup, some (.data 0#24)⟩, ⟨.readByte 0xD0#8, some .failure⟩]
        responses := s.responses ++ [⟨.errTransport, 0#64⟩] }) ∧
    (s.params.chipIdCheck = true → s.answerAt 0 = .bytes u0 u1 u2 → s.answerAt 1 = .bytes id i1 i2 →
      id ≠ s.params.expectedChipId →
      exec .begin s = .next { s with
        answers := s.answers.drop 2
        drawn := s.drawn + (2 - s.answers.length)
        trace := s.trace ++
          [⟨.tpSetup, some (.data 0#24)⟩, ⟨.readByte 0xD0#8, some (.data (BitVec.ofNat 24 id.toNat))⟩]
        responses := s.responses ++ [⟨.errChipId, 0#64⟩] })

/-- R65: at the first calibration read that fails, whichever of the twelve it is and wherever the answers come from (log
2), BEGIN stops: the answers after the failing one are not taken, the requests are the tabled ones up to the failing
read (the setup first is decision D10, the order of the reads decision D11, log 11), nothing is committed (decision
D12), the response is `ERR_TRANSPORT` with the value 0 (decision D20) and the block stays `Uninitialized`; and CAL_LOAD
fails in no other way. -/
def Obligations.CalibrationLoadStopsAtTheFirstFailure : Prop :=
  (∀ (s : State) (m n : Nat) (u0 u1 u2 id i1 i2 : Byte) (lo hi ex : Coeff → Byte), n < 12 →
    s.control = .uninitialized → m = (if s.params.chipIdCheck then 2 else 1) →
    s.answerAt 0 = .bytes u0 u1 u2 →
    (s.params.chipIdCheck = true → s.answerAt 1 = .bytes id i1 i2 ∧ id = s.params.expectedChipId) →
    (∀ c : Coeff, c.index.val < n → s.answerAt (m + c.index.val) = .bytes (lo c) (hi c) (ex c)) →
    s.answerAt (m + n) = .fail →
    ∃ es : List TpEvent,
      exec .begin s = .next { s with
        answers := s.answers.drop (m + n + 1)
        drawn := s.drawn + (m + n + 1 - s.answers.length)
        trace := s.trace ++ es
        responses := s.responses ++ [⟨.errTransport, 0#64⟩] } ∧
      es.map TpEvent.request = .tpSetup :: ((if s.params.chipIdCheck then [.readByte 0xD0#8] else []) ++
        (Coeff.all.take (n + 1)).map fun c => .readWord16LE c.addr) ∧
      es.getLast?.map TpEvent.reply = some (some .failure)) ∧
  ∀ (s t : State) (k : ErrorKind), calLoad s = .raised k t →
    k = .transport ∧ t.cal = s.cal ∧ t.trace.getLast?.map TpEvent.reply = some (some .failure)

/-- R64, R93 ("no partial-success state"): whatever the collaborator answers, BEGIN from `Uninitialized` answers a next
state, and either it fully succeeds (`T_FINE` then without a value by an explicit write, log 16), or no register changes
and the response is an error's, with the value 0 (decision D20, as for the `OK` of BEGIN), or it hangs (R131) and there
is no response, and no register has changed (what a hang leaves is log 18). -/
def Obligations.BeginIsAllOrNothing : Prop :=
  ∀ s : State, s.control = .uninitialized → s.outstanding = none → ∃ t, exec .begin s = .next t ∧
    (t.control = .ready ∧ (∀ c, (t.coeff c).isSome) ∧ t.tFine = none ∧ t.outstanding = none ∧
        t.responses = s.responses ++ [⟨.ok, 0#64⟩] ∨
      t.control = .uninitialized ∧ t.cal = s.cal ∧ t.tFine = s.tFine ∧ t.outstanding = none ∧
        (t.responses = s.responses ++ [⟨.errTransport, 0#64⟩] ∨ t.responses = s.responses ++ [⟨.errChipId, 0#64⟩]) ∨
      t.control = .uninitialized ∧ t.cal = s.cal ∧ t.tFine = s.tFine ∧ t.outstanding ≠ none ∧
        t.responses = s.responses)

/-! ## READ_TEMPERATURE -/

/-- R95, R73, the success path of READ_TEMPERATURE, whole next state: with the burst answered it completes with `T_FINE`
the fine temperature of the sample and the response `(OK, T_CENTI)`; nothing else is written. -/
def Obligations.ReadTemperatureResult : Prop :=
  ∀ (s : State) (w : Coeff → CalWord) (b0 b1 b2 : Byte), s.control = .ready → (∀ c, s.coeff c = some (w c)) →
    s.nextAnswer.1 = .bytes b0 b1 b2 →
    let r := compT (BitVec.ofNat 20 (4096 * b0.toNat + 16 * b1.toNat + b2.toNat / 16))
      (.ofWords (w .T1) (w .T2) (w .T3))
    exec .readTemperature s = .next { s.nextAnswer.2 with
      tFine := some (BitVec.ofInt 32 r.fine)
      trace := s.trace ++
        [⟨.read24 0xFA#8, some (.data (BitVec.ofNat 24 (65536 * b0.toNat + 256 * b1.toNat + b2.toNat)))⟩]
      responses := s.responses ++ [⟨.ok, BitVec.ofInt 64 r.tCenti⟩] }

/-- R95: READ_TEMPERATURE whose burst read fails answers `ERR_TRANSPORT` with the value 0 (decision D20) and leaves
`T_FINE` as it was (the spec's own decision D30); one whose burst read never completes does not respond (R131; what a
hang leaves is log 18). -/
def Obligations.ReadTemperatureWithoutASample : Prop :=
  ∀ s : State, s.control = .ready →
    (s.nextAnswer.1 = .fail →
      exec .readTemperature s = .next { s.nextAnswer.2 with
        trace := s.trace ++ [⟨.read24 0xFA#8, some .failure⟩]
        responses := s.responses ++ [⟨.errTransport, 0#64⟩] }) ∧
    (s.nextAnswer.1 = .never →
      exec .readTemperature s = .next { s.nextAnswer.2 with
        trace := s.trace ++ [⟨.read24 0xFA#8, none⟩]
        outstanding := some (.read24 0xFA#8) })

/-! ## READ_PRESSURE -/

/-- R96, R85, the success path of READ_PRESSURE, whole next state: two bursts, temperature first (the spec's own decision
D24), `T_FINE` the fine temperature of this command's own sample, and the response `(OK, P_Q8)` computed with that fine
temperature (R97 (a)), 0 in the degenerate case; nothing else is written. -/
def Obligations.ReadPressureResult : Prop :=
  ∀ (s : State) (w : Coeff → CalWord) (b0 b1 b2 c0 c1 c2 : Byte), s.control = .ready →
    (∀ c, s.coeff c = some (w c)) → s.answerAt 0 = .bytes b0 b1 b2 → s.answerAt 1 = .bytes c0 c1 c2 →
    let fine := (compT (BitVec.ofNat 20 (4096 * b0.toNat + 16 * b1.toNat + b2.toNat / 16))
      (.ofWords (w .T1) (w .T2) (w .T3))).fine
    let p := compP (BitVec.ofNat 20 (4096 * c0.toNat + 16 * c1.toNat + c2.toNat / 16)) fine
      (.ofWords (w .P1) (w .P2) (w .P3) (w .P4) (w .P5) (w .P6) (w .P7) (w .P8) (w .P9))
    exec .readPressure s = .next { s with
      tFine := some (BitVec.ofInt 32 fine)
      answers := s.answers.drop 2
      drawn := s.drawn + (2 - s.answers.length)
      trace := s.trace ++
        [⟨.read24 0xFA#8, some (.data (BitVec.ofNat 24 (65536 * b0.toNat + 256 * b1.toNat + b2.toNat)))⟩,
         ⟨.read24 0xF7#8, some (.data (BitVec.ofNat 24 (65536 * c0.toNat + 256 * c1.toNat + c2.toNat)))⟩]
      responses := s.responses ++ [⟨.ok, BitVec.ofInt 64 p⟩] }

/-- R96: READ_PRESSURE whose temperature burst fails answers `ERR_TRANSPORT` with the value 0 (decision D20), reads no
pressure (the temperature comes first by decision D24) and leaves `T_FINE` as it was (decision D30); one whose
temperature burst never completes does not respond (R131; log 18). -/
def Obligations.ReadPressureWithoutATemperature : Prop :=
  ∀ s : State, s.control = .ready →
    (s.nextAnswer.1 = .fail →
      exec .readPressure s = .next { s.nextAnswer.2 with
        trace := s.trace ++ [⟨.read24 0xFA#8, some .failure⟩]
        responses := s.responses ++ [⟨.errTransport, 0#64⟩] }) ∧
    (s.nextAnswer.1 = .never →
      exec .readPressure s = .next { s.nextAnswer.2 with
        trace := s.trace ++ [⟨.read24 0xFA#8, none⟩]
        outstanding := some (.read24 0xFA#8) })

/-- R96, R112: READ_PRESSURE whose pressure burst fails has already stored the new fine temperature, and keeps it (the
spec's own decision D22), and answers `ERR_TRANSPORT` with the value 0 (decision D20; the temperature comes first by
decision D24); one whose pressure burst never completes has stored it too and does not respond (R131; log 18). -/
def Obligations.ReadPressureWithoutAPressureSample : Prop :=
  ∀ (s : State) (w : Coeff → CalWord) (b0 b1 b2 : Byte), s.control = .ready → (∀ c, s.coeff c = some (w c)) →
    s.answerAt 0 = .bytes b0 b1 b2 →
    let fine := (compT (BitVec.ofNat 20 (4096 * b0.toNat + 16 * b1.toNat + b2.toNat / 16))
      (.ofWords (w .T1) (w .T2) (w .T3))).fine
    let burst := BitVec.ofNat 24 (65536 * b0.toNat + 256 * b1.toNat + b2.toNat)
    (s.answerAt 1 = .fail →
      exec .readPressure s = .next { s with
        tFine := some (BitVec.ofInt 32 fine)
        answers := s.answers.drop 2
        drawn := s.drawn + (2 - s.answers.length)
        trace := s.trace ++ [⟨.read24 0xFA#8, some (.data burst)⟩, ⟨.read24 0xF7#8, some .failure⟩]
        responses := s.responses ++ [⟨.errTransport, 0#64⟩] }) ∧
    (s.answerAt 1 = .never →
      exec .readPressure s = .next { s with
        tFine := some (BitVec.ofInt 32 fine)
        answers := s.answers.drop 2
        drawn := s.drawn + (2 - s.answers.length)
        trace := s.trace ++ [⟨.read24 0xFA#8, some (.data burst)⟩, ⟨.read24 0xF7#8, none⟩]
        outstanding := some (.read24 0xF7#8) })

/-- R110: when `var1` is 0 READ_PRESSURE answers `(OK, 0)` and `T_FINE` has been updated as in any successful
READ_PRESSURE; and the value 0 does not tell the case: some READ_PRESSURE answers `(OK, 0)` although `var1`, of sixteen-bit
words and of a fine temperature that `T_FINE` can hold, is not 0 (R90). -/
def Obligations.DegenerateReadingIsOkWithZero : Prop :=
  (∀ (s : State) (w : Coeff → CalWord) (b0 b1 b2 c0 c1 c2 : Byte), s.control = .ready →
    (∀ c, s.coeff c = some (w c)) → s.answerAt 0 = .bytes b0 b1 b2 → s.answerAt 1 = .bytes c0 c1 c2 →
    let fine := (compT (BitVec.ofNat 20 (4096 * b0.toNat + 16 * b1.toNat + b2.toNat / 16))
      (.ofWords (w .T1) (w .T2) (w .T3))).fine
    compPVar1 fine (.ofWords (w .P1) (w .P2) (w .P3) (w .P4) (w .P5) (w .P6) (w .P7) (w .P8) (w .P9)) = 0 →
    ∃ t, exec .readPressure s = .next t ∧ t.responses = s.responses ++ [⟨.ok, 0#64⟩] ∧
      t.tFine = some (BitVec.ofInt 32 fine)) ∧
  ∃ (s t : State) (w : Coeff → CalWord) (f : Fine), s.control = .ready ∧ (∀ c, s.coeff c = some (w c)) ∧
    exec .readPressure s = .next t ∧ t.responses = s.responses ++ [⟨.ok, 0#64⟩] ∧ t.tFine = some f ∧
    -1179648 ≤ f.toInt ∧ f.toInt ≤ 1179646 ∧
    compPVar1 f.toInt (.ofWords (w .P1) (w .P2) (w .P3) (w .P4) (w .P5) (w .P6) (w .P7) (w .P8) (w .P9)) ≠ 0

/-- R97 (b) (the spec's own derivation): READ_PRESSURE does not depend on what `T_FINE` held before: with another old
content the answers, the events and the responses are the same, and the states are equal but for a `T_FINE` that neither
run wrote. -/
def Obligations.PressureIgnoresTheOldFine : Prop :=
  ∀ (s t : State) (f : Option Fine), exec .readPressure s = .next t →
    exec .readPressure { s with tFine := f } = .next t ∨
    t.tFine = s.tFine ∧ exec .readPressure { s with tFine := f } = .next { t with tFine := f }

/-- R97 (a), (d) (the spec's own derivation), R125: a READ_PRESSURE that answers `OK` read exactly two bursts,
temperature first (decision D24), and its value is COMP_P of the second sample with the fine temperature of the first,
which `T_FINE` now holds. -/
def Obligations.OkPressurePairsItsOwnSamples : Prop :=
  ∀ (s t : State) (v : Value), s.control = .ready → exec .readPressure s = .next t →
    t.responses = s.responses ++ [⟨.ok, v⟩] →
    ∃ (w w' : Burst) (kt : TempCoeffs) (kp : PressCoeffs), s.tempCoeffs = .ok kt ∧ s.pressCoeffs = .ok kp ∧
      t.trace = s.trace ++ [⟨.read24 0xFA#8, some (.data w)⟩, ⟨.read24 0xF7#8, some (.data w')⟩] ∧
      t.tFine = some (BitVec.ofInt 32 (compT (w.extractLsb' 4 20) kt).fine) ∧
      v = BitVec.ofInt 64 (compP (w'.extractLsb' 4 20) (compT (w.extractLsb' 4 20) kt).fine kp)

/-! ## RESET -/

/-- R98, R99 (b) (for the failing write the spec's own decision D15), whole next states: RESET writes 0xB6 to 0xE0 and
leaves the block `Uninitialized` with no register holding a value, whether or not the write succeeds, and the response's
value is 0 (decision D20); a write that never completes is followed by nothing (R131; log 18). -/
def Obligations.ResetResult : Prop :=
  ∀ s : State, s.control = .ready →
    (∀ b0 b1 b2, s.nextAnswer.1 = .bytes b0 b1 b2 →
      exec .reset s = .next { s.nextAnswer.2 with
        control := .uninitialized, cal := CalStore.none, tFine := none
        trace := s.trace ++ [⟨.writeByte 0xE0#8 0xB6#8, some (.data 0#24)⟩]
        responses := s.responses ++ [⟨.ok, 0#64⟩] }) ∧
    (s.nextAnswer.1 = .fail →
      exec .reset s = .next { s.nextAnswer.2 with
        control := .uninitialized, cal := CalStore.none, tFine := none
        trace := s.trace ++ [⟨.writeByte 0xE0#8 0xB6#8, some .failure⟩]
        responses := s.responses ++ [⟨.errTransport, 0#64⟩] }) ∧
    (s.nextAnswer.1 = .never →
      exec .reset s = .next { s.nextAnswer.2 with
        trace := s.trace ++ [⟨.writeByte 0xE0#8 0xB6#8, none⟩]
        outstanding := some (.writeByte 0xE0#8 0xB6#8) })

/-- R98, R106, R123 (1): from `Uninitialized`, as after RESET, any list of commands without BEGIN answers `ERR_STATE` to
each, with the value 0 (decision D20; to RESET by the spec's own decision D14) (the list of inputs, one step a command,
is the model's choice, log 5), and touches neither the transport nor a register. -/
def Obligations.ReadsAreRefusedUntilBegin : Prop :=
  ∀ (cmds : List Instr) (s : State) (rest : List Input), (∀ i ∈ cmds, i ≠ .begin) →
    s.control = .uninitialized → s.outstanding = none → s.inputs = cmds.map (fun i => .command (encode i)) ++ rest →
    Host.Core.run Sys2Proof.core cmds.length s =
      .next { s with inputs := rest, responses := s.responses ++ List.replicate cmds.length ⟨.errState, 0#64⟩ }

/-! ## What holds of every command -/

/-- The frame of every command, a refused or a hanging one included: no command changes the parameters (R123 (3)) or the
inputs after it (that what the caller issues is a list in the state is the model's choice, log 5; R12, R102), and the
trace and the responses only grow (R20, R23; that they are kept is the model's choice, log 8). -/
def Obligations.EveryCommandFrame : Prop :=
  ∀ (i : Instr) (s t : State), exec i s = .next t →
    t.params = s.params ∧ t.inputs = s.inputs ∧ s.trace <+: t.trace ∧ s.responses <+: t.responses

/-- The frame of the two readings (R63, R95, R96): they write no coefficient register and not `STATE`, and no event of
theirs is a write to the device. -/
def Obligations.ReadingsWriteOnlyTheFineTemperature : Prop :=
  ∀ (i : Instr) (s t : State), i = .readTemperature ∨ i = .readPressure → exec i s = .next t →
    t.control = s.control ∧ t.cal = s.cal ∧ (∀ c, t.coeff c = s.coeff c) ∧
    ∃ es, t.trace = s.trace ++ es ∧ ∀ e ∈ es, ∀ r v, e.request ≠ .writeByte r v

/-- R17, R100: `STATE` leaves `Uninitialized` only by a BEGIN that answers `(OK, 0)` (the 0 is decision D20) and leaves
`Ready` only by RESET; and while it stays as it is no coefficient register changes (R63). -/
def Obligations.OnlyBeginAndResetChangeTheControlState : Prop :=
  ∀ (i : Instr) (s t : State), exec i s = .next t →
    (s.control = .uninitialized → t.control = .ready →
      i = .begin ∧ t.responses = s.responses ++ [⟨.ok, 0#64⟩] ∧ ∀ c, (t.coeff c).isSome) ∧
    (s.control = .ready → t.control = .uninitialized → i = .reset ∧ t.cal = CalStore.none ∧ t.tFine = none) ∧
    (t.control = s.control → t.cal = s.cal)

/-- R91, R104, R49 (the value 0 of an error is decision D20): a command that does not hang produces exactly one
response; an error's value is 0, as is BEGIN's and RESET's (D20); one that hangs produces none (R131). With no input the
core does nothing (R12; that an idle step is a step is the model's choice, log 5). -/
def Obligations.ExactlyOneResponsePerCommand : Prop :=
  (∀ (i : Instr) (s t : State), s.outstanding = none → exec i s = .next t →
    t.outstanding = none ∧ (∃ r, t.responses = s.responses ++ [r] ∧
        (r.status ≠ .ok ∨ i = .begin ∨ i = .reset → r.value = 0#64)) ∨
      t.outstanding ≠ none ∧ t.responses = s.responses) ∧
  ∀ s : State, s.inputs = [] → s.outstanding = none → step s = .next s

/-- R101, R111 (the setup first is decision D10, the order of the calibration reads D11, the temperature burst first
D24): the requests of every command, whatever is answered, are a prefix of its tabled ones, the whole of them when it
answers `OK`, and none when it is refused (with the value 0, decision D20). -/
def Obligations.TraceFollowsTheTable : Prop :=
  ∀ (i : Instr) (s t : State), exec i s = .next t → ∃ es, t.trace = s.trace ++ es ∧
    es.map TpEvent.request <+: successTrace s.params.chipIdCheck i ∧
    (∀ v, t.responses = s.responses ++ [⟨.ok, v⟩] → es.map TpEvent.request = successTrace s.params.chipIdCheck i) ∧
    (t.responses = s.responses ++ [⟨.errState, 0#64⟩] → es = [])

/-- R118: no command issues a request twice, and a transaction that fails is the last of its command, which it fails:
the response is `ERR_TRANSPORT` (R108) with the value 0 (the spec's own decision D20, log 11). -/
def Obligations.AFailedTransactionIsNeverRetried : Prop :=
  ∀ (i : Instr) (s t : State), exec i s = .next t → ∃ es, t.trace = s.trace ++ es ∧
    (es.map TpEvent.request).Nodup ∧
    ∀ (j : Nat) (e : TpEvent), es[j]? = some e → e.reply = some .failure →
      j + 1 = es.length ∧ t.responses = s.responses ++ [⟨.errTransport, 0#64⟩]

/-- R33: on the in-memory fake of R28 (the model's stand-in for a device, log 14) `writeByte` writes its byte to its
register and no other; and in every run, whatever the device, `writeByte` is issued only by RESET, by every RESET that is
not refused, and only as 0xB6 to 0xE0. -/
def Obligations.OnlyTheSoftResetIsWritten : Prop :=
  (∀ (image : RegAddr → Byte) (reg : RegAddr) (val : Byte), fakeAfter image (.writeByte reg val) reg = val ∧
    ∀ a, a ≠ reg → fakeAfter image (.writeByte reg val) a = image a) ∧
  ∀ (i : Instr) (s t : State), exec i s = .next t → ∃ es, t.trace = s.trace ++ es ∧
    (∀ e ∈ es, ∀ r v, e.request = .writeByte r v → i = .reset ∧ r = 0xE0#8 ∧ v = 0xB6#8) ∧
    (i = .reset → s.control = .ready → es.map TpEvent.request = [.writeByte 0xE0#8 0xB6#8])

/-- R38, R41: every request of every command is a read of bytes within a row of the register map that the core reads (or
the setup of decision D10, which has no address), or a write of the row it writes; no request touches STATUS, CTRL_MEAS
or CONFIG. -/
def Obligations.UnusedDeviceRegistersAreNeverAccessed : Prop :=
  ∀ (i : Instr) (s t : State), exec i s = .next t → ∃ es, t.trace = s.trace ++ es ∧ ∀ e ∈ es,
    ((e.request.within .readByCore ∧ ∀ r v, e.request ≠ .writeByte r v) ∨
      e.request.within .writtenByCore ∧ ∃ v, e.request = .writeByte 0xE0#8 v) ∧
    ∀ r, e.request.reg = some r → r ≠ 0xF3#8 ∧ r ≠ 0xF4#8 ∧ r ≠ 0xF5#8

/-- R29, R42: the transactions of a command are answered one by one in issue order: the reply of the `j`-th is what the
collaborator answers to it, each takes exactly one answer, and the next command starts at the answer after them (the form
of the answers is log 2). -/
def Obligations.TransactionsAreAnsweredInOrder : Prop :=
  ∀ (i : Instr) (s t : State), exec i s = .next t → ∃ es, t.trace = s.trace ++ es ∧
    (∀ (j : Nat) (e : TpEvent), es[j]? = some e → e.reply = e.request.replyTo (s.answerAt j)) ∧
    ∀ j, t.answerAt j = s.answerAt (es.length + j)

/-! ## Invariants and progress -/

/-- Every promise of Safety.lean holds right after the hardware reset. That `cal` and `T_FINE` hold no value there and
that nothing is outstanding is the spec's own decision D17 (R25, R122; log 11). `OnlyIssued` and `ErrorsCarryNoValue`
hold there because the trace and the responses of `State.reset` are empty, which is the model's choice (log 3); the
reset event itself keeps both logs. -/
def Obligations.GoodHoldsAtReset : Prop := State.reset.Good

/-- HEADLINE. Every step from a good state leads to a good state: registers hold values exactly as the control state says
(R15, R22, R100), `T_FINE` in range (R75) and fresh (R97), only tabled requests seen (R33, R38), an outstanding transaction
the last one issued (R29, R131), no value with an error (R49; decision D20). -/
def Obligations.EveryStepKeepsGood : Prop :=
  ∀ s t : State, s.Good → step s = .next t → t.Good

/-- HEADLINE. R97 (d), R125, on its own and from every state in which it holds: whatever `T_FINE` holds is the fine
temperature of the most recent temperature sample read. No other invariant is assumed. -/
def Obligations.EveryStepKeepsTheFineFresh : Prop :=
  ∀ s t : State, s.FineIsFresh → step s = .next t → t.FineIsFresh

/-- R15, R16, R22, R131 (that a step past a hang stops is log 6): from a state whose registers hold values as its
control state says, a step always answers a next state unless a transaction is outstanding; so no register without a value
is ever read. -/
def Obligations.NoStepStopsWithoutAHang : Prop :=
  ∀ s : State, s.Lifecycle → s.outstanding = none → ∃ t, step s = .next t ∧ t.Lifecycle

/-- R131: a command one of whose transactions never completes does not respond, and only such a command leaves a
transaction outstanding; then no command is accepted, nothing responds, and only the hardware reset (decision D17) makes
a step (that the stop is named `transportHang` or `portBusy` is log 6); and a command whose transactions all complete
terminates with one response. -/
def Obligations.AHangLastsUntilTheHardwareReset : Prop :=
  (∀ (i : Instr) (s t : State), s.outstanding = none → exec i s = .next t → ∃ es, t.trace = s.trace ++ es ∧
    (∀ e ∈ es, e.reply = none → t.outstanding = some e.request ∧ t.responses = s.responses) ∧
    ∀ q, t.outstanding = some q → t.responses = s.responses ∧ es.getLast? = some ⟨q, none⟩) ∧
  (∀ (s : State) (q : TpRequest), s.outstanding = some q →
    (s.inputs = [] → step s = .fault .transportHang) ∧
    (∀ w rest, s.inputs = .command w :: rest → step s = .refused .portBusy) ∧
    (∀ rest, s.inputs = .hardwareReset :: rest →
      ∃ t, step s = .next t ∧ t.outstanding = none ∧ t.inputs = rest ∧ t.responses = s.responses)) ∧
  ∀ (i : Instr) (s : State), s.Lifecycle → s.outstanding = none → (∀ j, j < 14 → s.answerAt j ≠ .never) →
    ∃ t r, exec i s = .next t ∧ t.outstanding = none ∧ t.responses = s.responses ++ [r]

/-- R48, R11 (the queue of inputs is log 5): when a command word is next and the port is free, a step decodes it and
executes that command on the state after the word is taken; and the state that the host's `withFetchWord` makes runs
exactly the tabled command (log 19). -/
def Obligations.AStepRunsTheDecodedCommand : Prop :=
  (∀ (s : State) (w : CommandWord) (rest : List Input), s.inputs = .command w :: rest → s.outstanding = none →
    step s = exec (decode w) { s with inputs := rest }) ∧
  ∀ (s : State) (i : Instr), step (s.withFetchWord 8 (encode i).toNat) = exec i { s with outstanding := none }
end

