-- ==== Sys2Proof/Laws/Arith.lean ====
section
/-!
SUPPORT. Laws/Arith.lean: what the arithmetic primitives do: the range of a wrap, when it changes nothing, that it is a
ring homomorphism modulo 2^N, the bounds of the floor shift, and the patterns they leave in a register.
-/

namespace Sys2Proof.Machine

theorem wrap32_ge (x : Int) : -2147483648 ≤ wrap32 x := by
  have := Int.le_bmod (x := x) (m := 4294967296) (by decide); simpa [wrap32] using this

theorem wrap32_lt (x : Int) : wrap32 x < 2147483648 := by
  have := Int.bmod_lt (x := x) (m := 4294967296) (by decide); simpa [wrap32] using this

theorem wrap64_ge (x : Int) : -9223372036854775808 ≤ wrap64 x := by
  have := Int.le_bmod (x := x) (m := 18446744073709551616) (by decide); simpa [wrap64] using this

theorem wrap64_lt (x : Int) : wrap64 x < 9223372036854775808 := by
  have := Int.bmod_lt (x := x) (m := 18446744073709551616) (by decide); simpa [wrap64] using this

theorem wrap32_of_range {x : Int} (h1 : -2147483648 ≤ x) (h2 : x < 2147483648) : wrap32 x = x := by
  unfold wrap32; exact Int.bmod_eq_of_le (by simpa using h1) (by simpa using h2)

theorem wrap64_of_range {x : Int} (h1 : -9223372036854775808 ≤ x) (h2 : x < 9223372036854775808) : wrap64 x = x := by
  unfold wrap64; exact Int.bmod_eq_of_le (by simpa using h1) (by simpa using h2)

/-- A wrap differs from its argument by a multiple of 2^32. -/
theorem wrap32_eq (x : Int) : ∃ c : Int, wrap32 x = x + 4294967296 * c := by
  have h : wrap32 x = x % 4294967296 ∨ wrap32 x = x % 4294967296 - 4294967296 := by
    simp only [wrap32, Int.bmod_def]; split <;> simp
  rcases h with h | h
  · exact ⟨-(x / 4294967296), by omega⟩
  · exact ⟨-(x / 4294967296) - 1, by omega⟩

/-- A wrap differs from its argument by a multiple of 2^64. -/
theorem wrap64_eq (x : Int) : ∃ c : Int, wrap64 x = x + 18446744073709551616 * c := by
  have h : wrap64 x = x % 18446744073709551616 ∨ wrap64 x = x % 18446744073709551616 - 18446744073709551616 := by
    simp only [wrap64, Int.bmod_def]; split <;> simp
  rcases h with h | h
  · exact ⟨-(x / 18446744073709551616), by omega⟩
  · exact ⟨-(x / 18446744073709551616) - 1, by omega⟩

@[simp] theorem wrap32_add_wrap32 (x y : Int) : wrap32 (wrap32 x + wrap32 y) = wrap32 (x + y) := by
  simp [wrap32]

@[simp] theorem wrap32_sub_wrap32 (x y : Int) : wrap32 (wrap32 x - wrap32 y) = wrap32 (x - y) := by
  simp [wrap32]

@[simp] theorem wrap32_mul_wrap32 (x y : Int) : wrap32 (wrap32 x * wrap32 y) = wrap32 (x * y) := by
  simp [wrap32]

@[simp] theorem wrap64_add_wrap64 (x y : Int) : wrap64 (wrap64 x + wrap64 y) = wrap64 (x + y) := by
  simp [wrap64]

@[simp] theorem wrap64_sub_wrap64 (x y : Int) : wrap64 (wrap64 x - wrap64 y) = wrap64 (x - y) := by
  simp [wrap64]

@[simp] theorem wrap64_mul_wrap64 (x y : Int) : wrap64 (wrap64 x * wrap64 y) = wrap64 (x * y) := by
  simp [wrap64]

/-- The pattern a wrapped number leaves in 32 bits stands for that number. -/
theorem toInt_ofInt_wrap32 (x : Int) : (BitVec.ofInt 32 x).toInt = wrap32 x := by
  simp [BitVec.toInt_ofInt, wrap32]

/-- The pattern a wrapped number leaves in 64 bits stands for that number. -/
theorem toInt_ofInt_wrap64 (x : Int) : (BitVec.ofInt 64 x).toInt = wrap64 x := by
  simp [BitVec.toInt_ofInt, wrap64]

/-- A number in the signed 32-bit range is what its pattern stands for. -/
theorem toInt_ofInt_of_range {x : Int} (h1 : -2147483648 ≤ x) (h2 : x < 2147483648) :
    (BitVec.ofInt 32 x).toInt = x := by
  rw [toInt_ofInt_wrap32, wrap32_of_range h1 h2]

/-- The floor shift as a division by a positive number (R7). -/
theorem asr_bounds (x : Int) (k : Nat) :
    asr x k * ((2 ^ k : Nat) : Int) ≤ x ∧ x < (asr x k + 1) * ((2 ^ k : Nat) : Int) := by
  have h : (0 : Int) < ((2 ^ k : Nat) : Int) := by positivity
  exact ⟨Int.ediv_mul_le x h.ne', by have := Int.lt_ediv_add_one_mul_self x h; simpa [asr] using this⟩

/-- A shift keeps every symmetric range (R7). -/
theorem asr_range {x m : Int} (k : Nat) (h1 : -m ≤ x) (h2 : x < m) : -m ≤ asr x k ∧ asr x k < m := by
  obtain ⟨a, b⟩ := asr_bounds x k
  have hp : (1 : Int) ≤ ((2 ^ k : Nat) : Int) := by exact_mod_cast Nat.one_le_two_pow
  generalize ((2 ^ k : Nat) : Int) = p at *
  constructor <;> by_contra hc <;> nlinarith

/-- A shift by `k` divides a range that `2^k` divides (R7). -/
theorem asr_range_div {x m : Int} (k : Nat) (h1 : -(m * ((2 ^ k : Nat) : Int)) ≤ x) (h2 : x < m * ((2 ^ k : Nat) : Int)) :
    -m ≤ asr x k ∧ asr x k < m := by
  obtain ⟨a, b⟩ := asr_bounds x k
  have hp : (1 : Int) ≤ ((2 ^ k : Nat) : Int) := by exact_mod_cast Nat.one_le_two_pow
  generalize ((2 ^ k : Nat) : Int) = p at *
  constructor <;> by_contra hc <;> nlinarith

theorem ofInt_mul_two_pow {w : Nat} (x : Int) (k : Nat) :
    BitVec.ofInt w (x * ((2 ^ k : Nat) : Int)) = BitVec.ofInt w x <<< k := by
  rw [BitVec.shiftLeft_eq_mul_twoPow, BitVec.ofInt_mul]
  congr 1
  apply BitVec.eq_of_toNat_eq
  rw [BitVec.ofInt_natCast]
  simp [Nat.pow_mod]

/-- Shifting a pattern left is the wrapping left shift of the number (R8). -/
theorem toInt_shiftLeft_eq_shl32 (x : BitVec 32) (k : Nat) : (x <<< k).toInt = shl32 x.toInt k := by
  rw [shl32, ← toInt_ofInt_wrap32, ofInt_mul_two_pow, BitVec.ofInt_toInt]

theorem toInt_shiftLeft_eq_shl64 (x : BitVec 64) (k : Nat) : (x <<< k).toInt = shl64 x.toInt k := by
  rw [shl64, ← toInt_ofInt_wrap64, ofInt_mul_two_pow, BitVec.ofInt_toInt]

theorem toInt_add32 (x y : BitVec 32) : (x + y).toInt = wrap32 (x.toInt + y.toInt) := by simp [wrap32]
theorem toInt_sub32 (x y : BitVec 32) : (x - y).toInt = wrap32 (x.toInt - y.toInt) := by simp [wrap32]
theorem toInt_mul32 (x y : BitVec 32) : (x * y).toInt = wrap32 (x.toInt * y.toInt) := by simp [wrap32]
theorem toInt_add64 (x y : BitVec 64) : (x + y).toInt = wrap64 (x.toInt + y.toInt) := by simp [wrap64]
theorem toInt_sub64 (x y : BitVec 64) : (x - y).toInt = wrap64 (x.toInt - y.toInt) := by simp [wrap64]
theorem toInt_mul64 (x y : BitVec 64) : (x * y).toInt = wrap64 (x.toInt * y.toInt) := by simp [wrap64]

/-- The truncating quotient of two patterns is `sdiv64` of their numbers (R9), the overflow included, as `DIV_OVF` is
−2^63. -/
theorem toInt_sdiv_eq_sdiv64 (x y : BitVec 64) (h : y.toInt ≠ 0) : (x.sdiv y).toInt = sdiv64 x.toInt y.toInt h := by
  rw [BitVec.toInt_sdiv, sdiv64]
  split
  · rename_i hh; rw [hh.1, hh.2]; decide
  · simp [wrap64]

/-- Shifting a signed pattern right is the floor shift of the number. -/
theorem toInt_sshiftRight_eq_asr {w : Nat} (x : BitVec w) (k : Nat) : (x.sshiftRight k).toInt = asr x.toInt k := by
  simp [BitVec.toInt_sshiftRight, asr, Int.shiftRight_eq_div_pow]

end Sys2Proof.Machine
end

