-- ==== Sys2Proof/Laws/State.lean ====
section
/-!
SUPPORT. Laws/State.lean: what each update of the state leaves in each field.
-/

namespace Sys2Proof.Machine

variable (s : State)

@[simp] theorem State.setTFine_control (v : Int) : (s.setTFine v).control = s.control := rfl
@[simp] theorem State.setTFine_cal (v : Int) : (s.setTFine v).cal = s.cal := rfl
@[simp] theorem State.setTFine_tFine (v : Int) : (s.setTFine v).tFine = some (BitVec.ofInt 32 v) := rfl
@[simp] theorem State.setTFine_outstanding (v : Int) : (s.setTFine v).outstanding = s.outstanding := rfl
@[simp] theorem State.setTFine_params (v : Int) : (s.setTFine v).params = s.params := rfl
@[simp] theorem State.setTFine_inputs (v : Int) : (s.setTFine v).inputs = s.inputs := rfl
@[simp] theorem State.setTFine_answers (v : Int) : (s.setTFine v).answers = s.answers := rfl
@[simp] theorem State.setTFine_drawn (v : Int) : (s.setTFine v).drawn = s.drawn := rfl
@[simp] theorem State.setTFine_trace (v : Int) : (s.setTFine v).trace = s.trace := rfl
@[simp] theorem State.setTFine_responses (v : Int) : (s.setTFine v).responses = s.responses := rfl

@[simp] theorem State.toReady_control : (s.toReady).control = .ready := rfl
@[simp] theorem State.toReady_cal : (s.toReady).cal = s.cal := rfl
@[simp] theorem State.toReady_tFine : (s.toReady).tFine = none := rfl
@[simp] theorem State.toReady_outstanding : (s.toReady).outstanding = s.outstanding := rfl
@[simp] theorem State.toReady_params : (s.toReady).params = s.params := rfl
@[simp] theorem State.toReady_inputs : (s.toReady).inputs = s.inputs := rfl
@[simp] theorem State.toReady_answers : (s.toReady).answers = s.answers := rfl
@[simp] theorem State.toReady_drawn : (s.toReady).drawn = s.drawn := rfl
@[simp] theorem State.toReady_trace : (s.toReady).trace = s.trace := rfl
@[simp] theorem State.toReady_responses : (s.toReady).responses = s.responses := rfl

@[simp] theorem State.toUninitialized_control : (s.toUninitialized).control = .uninitialized := rfl
@[simp] theorem State.toUninitialized_cal : (s.toUninitialized).cal = CalStore.none := rfl
@[simp] theorem State.toUninitialized_tFine : (s.toUninitialized).tFine = none := rfl
@[simp] theorem State.toUninitialized_outstanding : (s.toUninitialized).outstanding = s.outstanding := rfl
@[simp] theorem State.toUninitialized_params : (s.toUninitialized).params = s.params := rfl
@[simp] theorem State.toUninitialized_inputs : (s.toUninitialized).inputs = s.inputs := rfl
@[simp] theorem State.toUninitialized_answers : (s.toUninitialized).answers = s.answers := rfl
@[simp] theorem State.toUninitialized_drawn : (s.toUninitialized).drawn = s.drawn := rfl
@[simp] theorem State.toUninitialized_trace : (s.toUninitialized).trace = s.trace := rfl
@[simp] theorem State.toUninitialized_responses : (s.toUninitialized).responses = s.responses := rfl

@[simp] theorem State.hardwareReset_control : (s.hardwareReset).control = .uninitialized := rfl
@[simp] theorem State.hardwareReset_cal : (s.hardwareReset).cal = CalStore.none := rfl
@[simp] theorem State.hardwareReset_tFine : (s.hardwareReset).tFine = none := rfl
@[simp] theorem State.hardwareReset_outstanding : (s.hardwareReset).outstanding = none := rfl
@[simp] theorem State.hardwareReset_params : (s.hardwareReset).params = s.params := rfl
@[simp] theorem State.hardwareReset_inputs : (s.hardwareReset).inputs = s.inputs := rfl
@[simp] theorem State.hardwareReset_answers : (s.hardwareReset).answers = s.answers := rfl
@[simp] theorem State.hardwareReset_drawn : (s.hardwareReset).drawn = s.drawn := rfl
@[simp] theorem State.hardwareReset_trace : (s.hardwareReset).trace = s.trace := rfl
@[simp] theorem State.hardwareReset_responses : (s.hardwareReset).responses = s.responses := rfl

@[simp] theorem State.respond_control (st : Status) (v : Value) : (s.respond st v).control = s.control := rfl
@[simp] theorem State.respond_cal (st : Status) (v : Value) : (s.respond st v).cal = s.cal := rfl
@[simp] theorem State.respond_tFine (st : Status) (v : Value) : (s.respond st v).tFine = s.tFine := rfl
@[simp] theorem State.respond_outstanding (st : Status) (v : Value) : (s.respond st v).outstanding = s.outstanding := rfl
@[simp] theorem State.respond_params (st : Status) (v : Value) : (s.respond st v).params = s.params := rfl
@[simp] theorem State.respond_inputs (st : Status) (v : Value) : (s.respond st v).inputs = s.inputs := rfl
@[simp] theorem State.respond_answers (st : Status) (v : Value) : (s.respond st v).answers = s.answers := rfl
@[simp] theorem State.respond_drawn (st : Status) (v : Value) : (s.respond st v).drawn = s.drawn := rfl
@[simp] theorem State.respond_trace (st : Status) (v : Value) : (s.respond st v).trace = s.trace := rfl
@[simp] theorem State.respond_responses (st : Status) (v : Value) : (s.respond st v).responses = s.responses ++ [⟨st, v⟩] := rfl

@[simp] theorem State.takeError_control (e : ErrorKind) : (s.takeError e).control = s.control := rfl
@[simp] theorem State.takeError_cal (e : ErrorKind) : (s.takeError e).cal = s.cal := rfl
@[simp] theorem State.takeError_tFine (e : ErrorKind) : (s.takeError e).tFine = s.tFine := rfl
@[simp] theorem State.takeError_outstanding (e : ErrorKind) : (s.takeError e).outstanding = s.outstanding := rfl
@[simp] theorem State.takeError_params (e : ErrorKind) : (s.takeError e).params = s.params := rfl
@[simp] theorem State.takeError_inputs (e : ErrorKind) : (s.takeError e).inputs = s.inputs := rfl
@[simp] theorem State.takeError_answers (e : ErrorKind) : (s.takeError e).answers = s.answers := rfl
@[simp] theorem State.takeError_drawn (e : ErrorKind) : (s.takeError e).drawn = s.drawn := rfl
@[simp] theorem State.takeError_trace (e : ErrorKind) : (s.takeError e).trace = s.trace := rfl
@[simp] theorem State.takeError_responses (e : ErrorKind) : (s.takeError e).responses = s.responses ++ [⟨e.status, 0#64⟩] := rfl

@[simp] theorem State.observe_control (q : TpRequest) (r : Option TpReply) : (s.observe q r).control = s.control := rfl
@[simp] theorem State.observe_cal (q : TpRequest) (r : Option TpReply) : (s.observe q r).cal = s.cal := rfl
@[simp] theorem State.observe_tFine (q : TpRequest) (r : Option TpReply) : (s.observe q r).tFine = s.tFine := rfl
@[simp] theorem State.observe_outstanding (q : TpRequest) (r : Option TpReply) : (s.observe q r).outstanding = s.outstanding := rfl
@[simp] theorem State.observe_params (q : TpRequest) (r : Option TpReply) : (s.observe q r).params = s.params := rfl
@[simp] theorem State.observe_inputs (q : TpRequest) (r : Option TpReply) : (s.observe q r).inputs = s.inputs := rfl
@[simp] theorem State.observe_answers (q : TpRequest) (r : Option TpReply) : (s.observe q r).answers = s.answers := rfl
@[simp] theorem State.observe_drawn (q : TpRequest) (r : Option TpReply) : (s.observe q r).drawn = s.drawn := rfl
@[simp] theorem State.observe_trace (q : TpRequest) (r : Option TpReply) : (s.observe q r).trace = s.trace ++ [⟨q, r⟩] := rfl
@[simp] theorem State.observe_responses (q : TpRequest) (r : Option TpReply) : (s.observe q r).responses = s.responses := rfl

@[simp] theorem State.nextAnswer_control : s.nextAnswer.2.control = s.control := by
  unfold State.nextAnswer; split <;> rfl
@[simp] theorem State.nextAnswer_cal : s.nextAnswer.2.cal = s.cal := by
  unfold State.nextAnswer; split <;> rfl
@[simp] theorem State.nextAnswer_tFine : s.nextAnswer.2.tFine = s.tFine := by
  unfold State.nextAnswer; split <;> rfl
@[simp] theorem State.nextAnswer_outstanding : s.nextAnswer.2.outstanding = s.outstanding := by
  unfold State.nextAnswer; split <;> rfl
@[simp] theorem State.nextAnswer_params : s.nextAnswer.2.params = s.params := by
  unfold State.nextAnswer; split <;> rfl
@[simp] theorem State.nextAnswer_inputs : s.nextAnswer.2.inputs = s.inputs := by
  unfold State.nextAnswer; split <;> rfl
@[simp] theorem State.nextAnswer_trace : s.nextAnswer.2.trace = s.trace := by
  unfold State.nextAnswer; split <;> rfl
@[simp] theorem State.nextAnswer_responses : s.nextAnswer.2.responses = s.responses := by
  unfold State.nextAnswer; split <;> rfl

@[simp] theorem State.nextAnswer_answers : s.nextAnswer.2.answers = s.answers.drop 1 := by
  unfold State.nextAnswer; split <;> simp [*]

@[simp] theorem State.nextAnswer_drawn : s.nextAnswer.2.drawn = s.drawn + (1 - s.answers.length) := by
  unfold State.nextAnswer; split <;> simp [*]

theorem State.nextAnswer_scripted {a : Answer} {rest : List Answer} (h : s.answers = a :: rest) :
    s.nextAnswer = (a, { s with answers := rest }) := by
  simp [State.nextAnswer, h]

theorem State.nextAnswer_free (h : s.answers = []) :
    s.nextAnswer = (Config.freeAnswer s.drawn, { s with drawn := s.drawn + 1 }) := by
  simp [State.nextAnswer, h]

/-- Taking an answer changes the answers and the count of the free ones, and nothing else. -/
theorem State.nextAnswer_snd :
    s.nextAnswer.2 = { s with answers := s.answers.drop 1, drawn := s.drawn + (1 - s.answers.length) } := by
  unfold State.nextAnswer; split <;> simp [*]

theorem State.nextAnswer_eq_answerAt : s.nextAnswer.1 = s.answerAt 0 := by
  unfold State.nextAnswer State.answerAt; split <;> simp [*]

@[simp] theorem State.reset_control : State.reset.control = .uninitialized := rfl
@[simp] theorem State.reset_cal : State.reset.cal = CalStore.none := rfl
@[simp] theorem State.reset_tFine : State.reset.tFine = none := rfl
@[simp] theorem State.reset_outstanding : State.reset.outstanding = none := rfl
@[simp] theorem State.reset_inputs : State.reset.inputs = [] := rfl
@[simp] theorem State.reset_answers : State.reset.answers = [] := rfl
@[simp] theorem State.reset_drawn : State.reset.drawn = 0 := rfl
@[simp] theorem State.reset_trace : State.reset.trace = [] := rfl
@[simp] theorem State.reset_responses : State.reset.responses = [] := rfl

end Sys2Proof.Machine
end

