-- ==== Sys2Proof/Laws/Registers.lean ====
section
/-!
SUPPORT. Laws/Registers.lean: the coefficient store: a read after a write, the empty store, and what the twelve writes
of CAL_LOAD leave.
-/

namespace Sys2Proof.Machine

theorem Coeff.index_injective {c d : Coeff} (h : c.index = d.index) : c = d := by
  revert h; cases c <;> cases d <;> decide

theorem Coeff.mem_all (c : Coeff) : c ∈ Coeff.all := by cases c <;> decide

theorem Coeff.nodup_all : Coeff.all.Nodup := by decide

/-- Register `i` is read back as written, and every other register as it was (R14: no register aliases another). -/
theorem CalStore.write_index (cal : CalStore) (c d : Coeff) (w : CalWord) :
    (cal.write c w)[d.index] = if c = d then some w else cal[d.index] := by
  by_cases h : c = d
  · subst h; simp [CalStore.write]
  · have : c.index.val ≠ d.index.val := fun e => h (Coeff.index_injective (Fin.ext e))
    simp [CalStore.write, h, this]

theorem CalStore.none_index (c : Coeff) : CalStore.none[c.index] = Option.none := by
  cases c <;> rfl

theorem State.coeff_of_cal_none {s : State} (h : s.cal = CalStore.none) (c : Coeff) : s.coeff c = none := by
  simp only [State.coeff, h]; exact CalStore.none_index c

theorem State.coeff_congr {s t : State} (h : s.cal = t.cal) (c : Coeff) : s.coeff c = t.coeff c := by
  simp only [State.coeff, h]

/-- Registers that the stage does not name stay as they were. -/
theorem CalStore.commit_other (stage : List (Coeff × CalWord)) (cal : CalStore) (d : Coeff)
    (h : d ∉ stage.map Prod.fst) : (cal.commit stage)[d.index] = cal[d.index] := by
  induction stage generalizing cal with
  | nil => rfl
  | cons cw rest ih =>
    simp only [List.map_cons, List.mem_cons, not_or] at h
    have := ih (cal.write cw.1 cw.2) h.2
    simp only [CalStore.commit, List.foldl_cons] at this ⊢
    rw [this, CalStore.write_index, if_neg (fun e => h.1 e.symm)]

/-- A register that the stage names once holds the staged word afterwards. -/
theorem CalStore.commit_mem (stage : List (Coeff × CalWord)) (cal : CalStore) (d : Coeff) (w : CalWord)
    (hn : (stage.map Prod.fst).Nodup) (h : (d, w) ∈ stage) : (cal.commit stage)[d.index] = some w := by
  induction stage generalizing cal with
  | nil => cases h
  | cons cw rest ih =>
    simp only [List.map_cons, List.nodup_cons] at hn
    rcases List.mem_cons.1 h with rfl | h'
    · have := CalStore.commit_other rest (cal.write d w) d hn.1
      simp only [CalStore.commit, List.foldl_cons] at this ⊢
      rw [this, CalStore.write_index, if_pos rfl]
    · exact ih _ hn.2 h'

end Sys2Proof.Machine
end

