-- ==== Sys2Proof/Laws/Transport.lean ====
section
/-!
SUPPORT. Laws/Transport.lean: everything a list of transport transactions can do, said once: which fields they leave, how
they extend the trace, which answers they take, and how a command's requests follow a tabled list.
-/

namespace Sys2Proof.Machine

/-- `t` is `s` after exactly the transport events `es`, whether or not the last one completed. -/
structure Transacted (s t : State) (es : List TpEvent) : Prop where
  control : t.control = s.control
  cal : t.cal = s.cal
  tFine : t.tFine = s.tFine
  params : t.params = s.params
  inputs : t.inputs = s.inputs
  responses : t.responses = s.responses
  trace : t.trace = s.trace ++ es
  answers : t.answers = s.answers.drop es.length
  drawn : t.drawn = s.drawn + (es.length - s.answers.length)
  replies : ∀ (j : Nat) (e : TpEvent), es[j]? = some e → e.reply = e.request.replyTo (s.answerAt j)

theorem Transacted.refl (s : State) : Transacted s s [] := by constructor <;> simp

/-- With the outstanding transaction known, the events determine the state. -/
theorem Transacted.state_eq {s t : State} {es : List TpEvent} (h : Transacted s t es)
    (ho : t.outstanding = s.outstanding) :
    t = { s with trace := s.trace ++ es, answers := s.answers.drop es.length,
                 drawn := s.drawn + (es.length - s.answers.length) } := by
  obtain ⟨h1, h2, h3, h4, h5, h6, h7, h8, h9, -⟩ := h
  cases t; simp_all

/-- The answers after some transactions are the later ones of the same collaborator. -/
theorem State.answerAt_after {s t : State} {n : Nat} (ha : t.answers = s.answers.drop n)
    (hd : t.drawn = s.drawn + (n - s.answers.length)) (j : Nat) : t.answerAt j = s.answerAt (n + j) := by
  unfold State.answerAt
  rw [ha, hd, List.getElem?_drop, List.length_drop]
  cases h : s.answers[n + j]? with
  | some a => rfl
  | none =>
    have := List.getElem?_eq_none_iff.1 h
    have : n - s.answers.length + (j - (s.answers.length - n)) = n + j - s.answers.length := by omega
    simp only [Nat.add_assoc, this]

theorem Transacted.answerAt {s t : State} {es : List TpEvent} (h : Transacted s t es) (j : Nat) :
    t.answerAt j = s.answerAt (es.length + j) := State.answerAt_after h.answers h.drawn j

theorem Transacted.trans {s t u : State} {es fs : List TpEvent} (h : Transacted s t es) (g : Transacted t u fs) :
    Transacted s u (es ++ fs) where
  control := g.control.trans h.control
  cal := g.cal.trans h.cal
  tFine := g.tFine.trans h.tFine
  params := g.params.trans h.params
  inputs := g.inputs.trans h.inputs
  responses := g.responses.trans h.responses
  trace := by rw [g.trace, h.trace, List.append_assoc]
  answers := by rw [g.answers, h.answers, List.drop_drop, List.length_append]
  drawn := by
    have := h.answers
    rw [g.drawn, h.drawn, this, List.length_drop, List.length_append]; omega
  replies := by
    intro j e he
    by_cases hj : j < es.length
    · rw [List.getElem?_append_left hj] at he; exact h.replies j e he
    · rw [List.getElem?_append_right (by omega)] at he
      have := g.replies _ e he
      rw [State.answerAt_after h.answers h.drawn] at this
      rwa [Nat.add_sub_cancel' (by omega)] at this

/-- A reply arrived with data. -/
def TpEvent.delivered (e : TpEvent) : Prop := ∃ d, e.reply = some (.data d)

/-- `c` is where a command stands that, from `s`, issued the requests `qs` in order, stopping at the first that did not
succeed, or raised the identity mismatch after one that did. -/
def Flow.Follows {α : Type} (s : State) (qs : List TpRequest) (c : Flow α) : Prop :=
  match c with
  | .done _ t => ∃ es, Transacted s t es ∧ t.outstanding = s.outstanding ∧ es.map TpEvent.request = qs ∧
      ∀ e ∈ es, e.delivered
  | .raised k t => ∃ es e, Transacted s t (es ++ [e]) ∧ t.outstanding = s.outstanding ∧
      (es ++ [e]).map TpEvent.request <+: qs ∧ (∀ e ∈ es, e.delivered) ∧
      (k = .transport ∧ e.reply = some .failure ∨ k = .chipId ∧ e.delivered)
  | .hung t => ∃ es q, Transacted s t (es ++ [⟨q, none⟩]) ∧ t.outstanding = some q ∧
      (es.map TpEvent.request ++ [q]) <+: qs ∧ ∀ e ∈ es, e.delivered

/-- One transaction, by how the collaborator answers it. -/
theorem transact_bytes {q : TpRequest} {s : State} {b0 b1 b2 : Byte} (h : s.nextAnswer.1 = .bytes b0 b1 b2) :
    transact q s = .done (q.assemble b0 b1 b2) (s.nextAnswer.2.observe q (some (.data (q.assemble b0 b1 b2)))) := by
  simp [transact, h, TpRequest.replyTo]

theorem transact_fail {q : TpRequest} {s : State} (h : s.nextAnswer.1 = .fail) :
    transact q s = .raised .transport (s.nextAnswer.2.observe q (some .failure)) := by
  simp [transact, h, TpRequest.replyTo]

theorem transact_never {q : TpRequest} {s : State} (h : s.nextAnswer.1 = .never) :
    transact q s = .hung { s.nextAnswer.2.observe q none with outstanding := some q } := by
  simp [transact, h, TpRequest.replyTo]

/-- The byte that the data of a `readByte` carries (R52). -/
theorem readByte_assemble (r : RegAddr) (b0 b1 b2 : Byte) :
    ((TpRequest.readByte r).assemble b0 b1 b2).extractLsb' 0 8 = b0 := by
  ext i hi; simp [TpRequest.assemble, hi]; omega

/-- The word that the data of a `readWord16LE` carries: the second byte above the first (R31, R52). -/
theorem readWord16LE_assemble (r : RegAddr) (b0 b1 b2 : Byte) :
    ((TpRequest.readWord16LE r).assemble b0 b1 b2).extractLsb' 0 16 = b1 ++ b0 := by
  ext i hi; simp [TpRequest.assemble, hi]; omega

/-- Taking the next answer and observing its reply is one transaction. -/
theorem Transacted.observe (s : State) (q : TpRequest) {r : Option TpReply} (hr : r = q.replyTo s.nextAnswer.1) :
    Transacted s (s.nextAnswer.2.observe q r) [⟨q, r⟩] := by
  subst hr
  constructor
  case replies =>
    intro j e he
    cases j with
    | zero => cases he; simp [State.nextAnswer_eq_answerAt]
    | succ j => simp at he
  all_goals simp

/-- One transaction that is answered with bytes. -/
theorem transact_answered_bytes (q : TpRequest) {s : State} {b0 b1 b2 : Byte} (h : s.answerAt 0 = .bytes b0 b1 b2) :
    ∃ t, transact q s = .done (q.assemble b0 b1 b2) t ∧
      Transacted s t [⟨q, some (.data (q.assemble b0 b1 b2))⟩] := by
  have hn : s.nextAnswer.1 = .bytes b0 b1 b2 := (State.nextAnswer_eq_answerAt s).trans h
  exact ⟨_, transact_bytes hn, .observe s q (by rw [hn]; rfl)⟩

/-- One transaction that fails. -/
theorem transact_answered_fail (q : TpRequest) {s : State} (h : s.answerAt 0 = .fail) :
    ∃ t, transact q s = .raised .transport t ∧ Transacted s t [⟨q, some .failure⟩] := by
  have hn : s.nextAnswer.1 = .fail := (State.nextAnswer_eq_answerAt s).trans h
  exact ⟨_, transact_fail hn, .observe s q (by rw [hn]; rfl)⟩

theorem transact_follows (q : TpRequest) (s : State) : (transact q s).Follows s [q] := by
  cases h : s.nextAnswer.1 with
  | bytes b0 b1 b2 =>
    rw [transact_bytes h]
    exact ⟨_, .observe s q (by rw [h]; rfl), by simp, by simp, by simp [TpEvent.delivered]⟩
  | fail =>
    rw [transact_fail h]
    exact ⟨[], _, .observe s q (by rw [h]; rfl), by simp, by simp, by simp, .inl ⟨rfl, rfl⟩⟩
  | never =>
    rw [transact_never h]
    obtain ⟨h1, h2, h3, h4, h5, h6, h7, h8, h9, h10⟩ := Transacted.observe s q (r := none) (by rw [h]; rfl)
    exact ⟨[], q, ⟨h1, h2, h3, h4, h5, h6, h7, h8, h9, h10⟩, rfl, by simp, by simp⟩

theorem Flow.Follows.map {α β : Type} {s : State} {qs : List TpRequest} {c : Flow α} (h : c.Follows s qs) (f : α → β) :
    (c.map f).Follows s qs := by
  cases c <;> exact h

/-- A finished command follows the empty list. -/
theorem Flow.follows_done {α : Type} (a : α) (s : State) : (Flow.done a s).Follows s [] :=
  ⟨[], .refl s, rfl, rfl, by simp⟩

/-- The requests of two parts of a command follow one after the other. -/
theorem Flow.Follows.andThen {α β : Type} {s : State} {qs qs' : List TpRequest} {c : Flow α} {f : α → State → Flow β}
    (h : c.Follows s qs) (hf : ∀ a t, c = .done a t → (f a t).Follows t qs') : (c.andThen f).Follows s (qs ++ qs') := by
  cases c with
  | raised k t =>
    obtain ⟨es, e, h1, h2, h3, h4, h5⟩ := h
    exact ⟨es, e, h1, h2, h3.trans (List.prefix_append _ _), h4, h5⟩
  | hung t =>
    obtain ⟨es, q, h1, h2, h3, h4⟩ := h
    exact ⟨es, q, h1, h2, h3.trans (List.prefix_append _ _), h4⟩
  | done a t =>
    obtain ⟨es, h1, h2, h3, h4⟩ := h
    have g := hf a t rfl
    simp only [Flow.andThen]
    generalize f a t = d at g
    have all : ∀ fs : List TpEvent, (∀ e ∈ fs, e.delivered) → ∀ e ∈ es ++ fs, e.delivered := fun fs hfs e he =>
      (List.mem_append.1 he).elim (h4 e) (hfs e)
    cases d with
    | done b u =>
      obtain ⟨fs, g1, g2, g3, g4⟩ := g
      exact ⟨es ++ fs, h1.trans g1, g2.trans h2, by simp [h3, g3], all fs g4⟩
    | raised k u =>
      obtain ⟨fs, e, g1, g2, g3, g4, g5⟩ := g
      refine ⟨es ++ fs, e, by simpa using h1.trans g1, g2.trans h2, ?_, all fs g4, g5⟩
      rw [List.append_assoc, List.map_append, h3]
      exact (List.prefix_append_right_inj qs).2 g3
    | hung u =>
      obtain ⟨fs, q, g1, g2, g3, g4⟩ := g
      refine ⟨es ++ fs, q, by simpa using h1.trans g1, g2, ?_, all fs g4⟩
      rw [List.map_append, h3, List.append_assoc]
      exact (List.prefix_append_right_inj qs).2 g3

theorem Flow.andThen_assoc {α β γ : Type} (c : Flow α) (f : α → State → Flow β) (g : β → State → Flow γ) :
    (c.andThen f).andThen g = c.andThen fun a s => (f a s).andThen g := by
  cases c <;> rfl

theorem Flow.map_eq_andThen {α β : Type} (f : α → β) (c : Flow α) : c.map f = c.andThen fun a s => .done (f a) s := by
  cases c <;> rfl

theorem readByte_follows (reg : RegAddr) (s : State) : (readByte reg s).Follows s [.readByte reg] :=
  (transact_follows _ s).map _

theorem readWord16LE_follows (reg : RegAddr) (s : State) : (readWord16LE reg s).Follows s [.readWord16LE reg] :=
  (transact_follows _ s).map _

theorem writeByte_follows (reg : RegAddr) (v : Byte) (s : State) : (writeByte reg v s).Follows s [.writeByte reg v] :=
  (transact_follows _ s).map _

theorem tpSetup_follows (s : State) : (tpSetup s).Follows s [.tpSetup] := (transact_follows _ s).map _

theorem sample_follows (reg : RegAddr) (s : State) : (sample reg s).Follows s [.read24 reg] :=
  (transact_follows _ s).map _

theorem toNat_append_eq {m n : Nat} (x : BitVec m) (y : BitVec n) : (x ++ y).toNat = x.toNat * 2 ^ n + y.toNat := by
  rw [BitVec.toNat_append, ← Nat.shiftLeft_add_eq_or_of_lt y.isLt, Nat.shiftLeft_eq]

/-- A burst as a number: big-endian (R32). -/
theorem read24_assemble (r : RegAddr) (b0 b1 b2 : Byte) :
    (TpRequest.read24 r).assemble b0 b1 b2 = BitVec.ofNat 24 (65536 * b0.toNat + 256 * b1.toNat + b2.toNat) := by
  have h0 := b0.isLt
  have h1 := b1.isLt
  have h2 := b2.isLt
  apply BitVec.eq_of_toNat_eq
  simp only [TpRequest.assemble, BitVec.toNat_setWidth, toNat_append_eq, BitVec.toNat_ofNat]; omega

/-- The sample of three bytes as a number (R54). -/
theorem sampleOf_bytes (b0 b1 b2 : Byte) :
    sampleOf (BitVec.ofNat 24 (65536 * b0.toNat + 256 * b1.toNat + b2.toNat)) =
      BitVec.ofNat 20 (4096 * b0.toNat + 16 * b1.toNat + b2.toNat / 16) := by
  have h0 := b0.isLt
  have h1 := b1.isLt
  have h2 := b2.isLt
  apply BitVec.eq_of_toNat_eq
  simp only [sampleOf, BitVec.extractLsb'_toNat, Nat.shiftRight_eq_div_pow, BitVec.toNat_ofNat]; omega

/-- A sample, by how the collaborator answers (R54, R66). -/
theorem sample_bytes {reg : RegAddr} {s : State} {b0 b1 b2 : Byte} (h : s.nextAnswer.1 = .bytes b0 b1 b2) :
    sample reg s = .done (sampleOf ((TpRequest.read24 reg).assemble b0 b1 b2))
      (s.nextAnswer.2.observe (.read24 reg) (some (.data ((TpRequest.read24 reg).assemble b0 b1 b2)))) := by
  simp [sample, read24, transact_bytes h, Flow.map]

theorem sample_fail {reg : RegAddr} {s : State} (h : s.nextAnswer.1 = .fail) :
    sample reg s = .raised .transport (s.nextAnswer.2.observe (.read24 reg) (some .failure)) := by
  simp [sample, read24, transact_fail h, Flow.map]

theorem sample_never {reg : RegAddr} {s : State} (h : s.nextAnswer.1 = .never) :
    sample reg s = .hung { s.nextAnswer.2.observe (.read24 reg) none with outstanding := some (.read24 reg) } := by
  simp [sample, read24, transact_never h, Flow.map]

/-- A sample that was read, and the state it leaves: its one event delivers it. -/
theorem sample_done {reg : RegAddr} {s t : State} {a : RawSample} (h : sample reg s = .done a t) :
    ∃ w, a = sampleOf w ∧ t = s.nextAnswer.2.observe (.read24 reg) (some (.data w)) ∧
      Transacted s t [⟨.read24 reg, some (.data w)⟩] ∧ t.outstanding = s.outstanding := by
  cases hb : s.nextAnswer.1 with
  | bytes b0 b1 b2 =>
    rw [sample_bytes hb] at h; cases h
    exact ⟨_, rfl, rfl, .observe _ _ (by rw [hb]; rfl), by simp⟩
  | fail => rw [sample_fail hb] at h; cases h
  | never => rw [sample_never hb] at h; cases h

end Sys2Proof.Machine
end

