-- ==== Sys2Proof/Laws/Commands.lean ====
section
/-!
SUPPORT. Laws/Commands.lean: one inversion lemma for each shared part of a command, and one for `exec`: if it answers
`next t`, how `t` came about.
-/

namespace Sys2Proof.Machine

/-! ### The state check -/

/-- A command that is not valid takes the state-precondition error and does nothing else (R92). -/
theorem exec_refused {i : Instr} {s : State} (h : validIn i s.control = false) : exec i s = .next (s.takeError .state) := by
  cases i <;> simp [exec, execBegin, execReadTemperature, execReadPressure, execReset, checked, h]

theorem exec_begin {s : State} (h : s.control = .uninitialized) :
    exec .begin s = .next ((beginSteps s).finish fun _ => 0#64) := by
  simp [exec, execBegin, checked, h, validIn]

theorem exec_readTemperature {s : State} (h : s.control = .ready) :
    exec .readTemperature s = finishReading (tempPhase s) := by
  simp [exec, execReadTemperature, checked, h, validIn]

theorem exec_readPressure {s : State} (h : s.control = .ready) :
    exec .readPressure s = finishReading (readPressureSteps s) := by
  simp [exec, execReadPressure, checked, h, validIn]

theorem exec_reset {s : State} (h : s.control = .ready) :
    exec .reset s = .next ((resetSteps s).finish fun _ => 0#64) := by
  simp [exec, execReset, checked, h, validIn]

/-! ### CAL_LOAD and BEGIN -/

theorem readWords_follows (cs : List Coeff) (s : State) :
    (readWords cs s).Follows s (cs.map fun c => .readWord16LE c.addr) := by
  induction cs generalizing s with
  | nil => exact Flow.follows_done _ _
  | cons c cs ih =>
    refine (readWord16LE_follows c.addr s).andThen (qs' := cs.map fun c => .readWord16LE c.addr) fun w t _ => ?_
    have := (ih t).andThen (qs' := []) (f := fun stage u => .done ((c, w) :: stage) u) fun _ _ _ => Flow.follows_done _ _
    simpa using this

/-- The staging copy names exactly the coefficients that were read, in order. -/
theorem readWords_stage {cs : List Coeff} {s t : State} {stage : List (Coeff × CalWord)}
    (h : readWords cs s = .done stage t) : stage.map Prod.fst = cs := by
  induction cs generalizing s t stage with
  | nil => cases h; rfl
  | cons c cs ih =>
    simp only [readWords] at h
    cases hw : readWord16LE c.addr s with
    | raised k u => simp [hw, Flow.andThen] at h
    | hung u => simp [hw, Flow.andThen] at h
    | done w u =>
      cases hs : readWords cs u with
      | raised k v => simp [hw, hs, Flow.andThen] at h
      | hung v => simp [hw, hs, Flow.andThen] at h
      | done st v =>
        simp only [hw, hs, Flow.andThen, Flow.done.injEq] at h
        obtain ⟨rfl, rfl⟩ := h
        simp [ih hs]

/-- Every register holds a value once the twelve words are committed (R59, R64). -/
theorem commit_isSome {cal : CalStore} {stage : List (Coeff × CalWord)} (h : stage.map Prod.fst = Coeff.all)
    (c : Coeff) : (cal.commit stage)[c.index].isSome := by
  obtain ⟨⟨d, w⟩, hm, rfl⟩ := List.mem_map.1 (h ▸ Coeff.mem_all c : c ∈ stage.map Prod.fst)
  rw [CalStore.commit_mem stage cal d w (h ▸ Coeff.nodup_all) hm]; rfl

theorem checkChipId_follows (s : State) :
    (checkChipId s).Follows s (if s.params.chipIdCheck then [.readByte Config.addrChipId] else []) := by
  by_cases hc : s.params.chipIdCheck = true
  · simp only [checkChipId, hc, if_true]
    have h := readByte_follows Config.addrChipId s
    cases hr : readByte Config.addrChipId s with
    | raised k t => rw [hr] at h; exact h
    | hung t => rw [hr] at h; exact h
    | done id t =>
      rw [hr] at h
      by_cases hm : chipIdMatches t.params id = true
      · simp only [Flow.andThen, hm, if_true]; exact h
      · obtain ⟨es, h1, h2, h3, h4⟩ := h
        obtain ⟨e, rfl⟩ : ∃ e, es = [e] := List.length_eq_one_iff.1 (by simpa using congrArg List.length h3)
        simp only [Flow.andThen, hm]
        exact ⟨[], e, h1, h2, by simp [← h3], by simp, .inr ⟨rfl, h4 e (by simp)⟩⟩
  · simp only [checkChipId, hc]
    exact Flow.follows_done _ _

/-- The transport part of BEGIN: setup, identity check and the twelve reads. -/
def beginReads (s : State) : Flow (List (Coeff × CalWord)) :=
  (tpSetup s).andThen fun _ s1 => (checkChipId s1).andThen fun _ s2 => readWords Coeff.all s2

/-- BEGIN is its transport part, then the commit and `STATE <- Ready` (R93, R64). -/
theorem beginSteps_eq (s : State) : beginSteps s =
    (beginReads s).andThen fun stage t => .done () { t with cal := t.cal.commit stage }.toReady := by
  simp only [beginSteps, beginReads, calLoad, Flow.andThen_assoc]; rfl

theorem tpSetup_params {s t : State} {u : Unit} (h : tpSetup s = .done u t) : t.params = s.params := by
  have := tpSetup_follows s; rw [h] at this; exact this.choose_spec.1.params

theorem beginReads_follows (s : State) : (beginReads s).Follows s (successTrace s.params.chipIdCheck .begin) := by
  have h : (beginReads s).Follows s ([.tpSetup] ++
      ((if s.params.chipIdCheck then [.readByte Config.addrChipId] else []) ++ calTrace)) := by
    refine (tpSetup_follows s).andThen fun _ t ht => ?_
    rw [← tpSetup_params ht]
    exact (checkChipId_follows t).andThen fun _ u _ => readWords_follows _ u
  by_cases hc : s.params.chipIdCheck = true <;> simpa [successTrace, hc] using h

theorem beginReads_stage {s t : State} {stage : List (Coeff × CalWord)} (h : beginReads s = .done stage t) :
    stage.map Prod.fst = Coeff.all := by
  simp only [beginReads] at h
  cases h1 : tpSetup s with
  | raised k u => simp [h1, Flow.andThen] at h
  | hung u => simp [h1, Flow.andThen] at h
  | done a u =>
    cases h2 : checkChipId u with
    | raised k v => simp [h1, h2, Flow.andThen] at h
    | hung v => simp [h1, h2, Flow.andThen] at h
    | done b v => simp only [h1, h2, Flow.andThen] at h; exact readWords_stage h

/-- The words that answered bytes give, little-endian (R31, R53, R59). -/
theorem readWords_answered (lo hi ex : Coeff → Byte) (cs : List Coeff) (s : State)
    (h : ∀ (j : Nat) (c : Coeff), cs[j]? = some c → s.answerAt j = .bytes (lo c) (hi c) (ex c)) :
    ∃ t, readWords cs s = .done (cs.map fun c => (c, hi c ++ lo c)) t := by
  induction cs generalizing s with
  | nil => exact ⟨s, rfl⟩
  | cons c cs ih =>
    obtain ⟨t, ht, hT⟩ := transact_answered_bytes (.readWord16LE c.addr) (h 0 c rfl)
    obtain ⟨u, hu⟩ := ih t fun j d hd => by
      rw [hT.answerAt, List.length_singleton, Nat.add_comm]; exact h (j + 1) d (by simpa using hd)
    exact ⟨u, by simp [readWords, readWord16LE, ht, Flow.map, Flow.andThen, hu, readWord16LE_assemble]⟩

/-- The reads of CAL_LOAD stop at the first that fails, which is the last transport event (R65). -/
theorem readWords_answered_fail (lo hi ex : Coeff → Byte) (cs ds : List Coeff) (d : Coeff) (s : State)
    (h : ∀ (j : Nat) (c : Coeff), cs[j]? = some c → s.answerAt j = .bytes (lo c) (hi c) (ex c))
    (hf : s.answerAt cs.length = .fail) :
    ∃ t, readWords (cs ++ d :: ds) s = .raised .transport t ∧ t.trace.length = s.trace.length + (cs.length + 1) := by
  induction cs generalizing s with
  | nil =>
    obtain ⟨t, ht, hT⟩ := transact_answered_fail (.readWord16LE d.addr) hf
    exact ⟨t, by simp [readWords, readWord16LE, ht, Flow.map, Flow.andThen], by simp [hT.trace]⟩
  | cons c cs ih =>
    obtain ⟨t, ht, hT⟩ := transact_answered_bytes (.readWord16LE c.addr) (h 0 c rfl)
    obtain ⟨u, hu, hl⟩ := ih t (fun j d hd => by
      rw [hT.answerAt, List.length_singleton, Nat.add_comm]; exact h (j + 1) d (by simpa using hd))
      (by rw [hT.answerAt, List.length_singleton, Nat.add_comm]; exact hf)
    refine ⟨u, by simp [readWords, readWord16LE, ht, Flow.map, Flow.andThen, hu], ?_⟩
    simp only [hl, hT.trace, List.length_append, List.length_cons, List.length_nil]
    omega

/-- The reads of CAL_LOAD raise no error but `TransportFailure` (R65). -/
theorem readWords_raised {cs : List Coeff} {s t : State} {k : ErrorKind} (h : readWords cs s = .raised k t) :
    k = .transport := by
  induction cs generalizing s with
  | nil => cases h
  | cons c cs ih =>
    simp only [readWords, readWord16LE, transact] at h
    cases ha : s.nextAnswer.1 with
    | fail => simp [ha, Flow.map, Flow.andThen] at h; exact h.1.symm
    | never => simp [ha, Flow.map, Flow.andThen] at h
    | bytes b0 b1 b2 =>
      simp only [ha, Flow.map, Flow.andThen] at h
      split at h
      · cases h
      · rename_i u hu; cases h; exact ih hu
      · cases h

/-- When the setup and the identity check go well, BEGIN goes on to the twelve reads, after one event or two (R93). -/
theorem beginChecks_answered {s : State} {u0 u1 u2 id i1 i2 : Byte} (h0 : s.answerAt 0 = .bytes u0 u1 u2)
    (h1 : s.params.chipIdCheck = true → s.answerAt 1 = .bytes id i1 i2 ∧ id = s.params.expectedChipId) :
    ∃ u es, Transacted s u es ∧ es.length = (if s.params.chipIdCheck then 2 else 1) ∧
      beginReads s = readWords Coeff.all u := by
  obtain ⟨t, ht, hT⟩ := transact_answered_bytes .tpSetup h0
  by_cases hc : s.params.chipIdCheck = true
  · obtain ⟨ha, hid⟩ := h1 hc
    obtain ⟨u, hu, hU⟩ := transact_answered_bytes (s := t) (.readByte Config.addrChipId) (by rw [hT.answerAt]; exact ha)
    refine ⟨u, _, hT.trans hU, by simp [hc], ?_⟩
    simp [beginReads, tpSetup, ht, Flow.map, Flow.andThen, checkChipId, readByte, hT.params, hc, hu, chipIdMatches,
      hU.params, readByte_assemble, hid]
  · exact ⟨t, _, hT, by simp [hc], by
      simp [beginReads, tpSetup, ht, Flow.map, Flow.andThen, checkChipId, hT.params, hc]⟩

/-! ### The readings -/

theorem State.readCoeff_ok {s : State} {c : Coeff} {w : CalWord} : s.readCoeff c = .ok w ↔ s.coeff c = some w := by
  unfold State.readCoeff; split <;> simp_all

theorem State.tempCoeffs_of {s : State} {w1 w2 w3 : CalWord} (h1 : s.coeff .T1 = some w1) (h2 : s.coeff .T2 = some w2)
    (h3 : s.coeff .T3 = some w3) : s.tempCoeffs = .ok (.ofWords w1 w2 w3) := by
  simp [State.tempCoeffs, State.readCoeff_ok.2 h1, State.readCoeff_ok.2 h2, State.readCoeff_ok.2 h3, bind, Except.bind,
    pure, Except.pure]

theorem State.tempCoeffs_ok {s : State} {k : TempCoeffs} (h : s.tempCoeffs = .ok k) :
    ∃ w1 w2 w3, s.coeff .T1 = some w1 ∧ s.coeff .T2 = some w2 ∧ s.coeff .T3 = some w3 ∧ k = .ofWords w1 w2 w3 := by
  cases h1 : s.coeff .T1 with
  | none => simp [State.tempCoeffs, State.readCoeff, h1, bind, Except.bind] at h
  | some w1 =>
    cases h2 : s.coeff .T2 with
    | none => simp [State.tempCoeffs, State.readCoeff, h1, h2, bind, Except.bind] at h
    | some w2 =>
      cases h3 : s.coeff .T3 with
      | none => simp [State.tempCoeffs, State.readCoeff, h1, h2, h3, bind, Except.bind] at h
      | some w3 =>
        rw [State.tempCoeffs_of h1 h2 h3] at h
        exact ⟨w1, w2, w3, rfl, rfl, rfl, (Except.ok.inj h).symm⟩

theorem State.pressCoeffs_of {s : State} {w1 w2 w3 w4 w5 w6 w7 w8 w9 : CalWord} (h1 : s.coeff .P1 = some w1)
    (h2 : s.coeff .P2 = some w2) (h3 : s.coeff .P3 = some w3) (h4 : s.coeff .P4 = some w4) (h5 : s.coeff .P5 = some w5)
    (h6 : s.coeff .P6 = some w6) (h7 : s.coeff .P7 = some w7) (h8 : s.coeff .P8 = some w8) (h9 : s.coeff .P9 = some w9) :
    s.pressCoeffs = .ok (.ofWords w1 w2 w3 w4 w5 w6 w7 w8 w9) := by
  simp [State.pressCoeffs, State.readCoeff_ok.2 h1, State.readCoeff_ok.2 h2, State.readCoeff_ok.2 h3,
    State.readCoeff_ok.2 h4, State.readCoeff_ok.2 h5, State.readCoeff_ok.2 h6, State.readCoeff_ok.2 h7,
    State.readCoeff_ok.2 h8, State.readCoeff_ok.2 h9, bind, Except.bind, pure, Except.pure]

theorem State.tempCoeffs_congr {s t : State} (h : t.cal = s.cal) : t.tempCoeffs = s.tempCoeffs := by
  simp [State.tempCoeffs, State.readCoeff, State.coeff_congr h]

theorem State.pressCoeffs_congr {s t : State} (h : t.cal = s.cal) : t.pressCoeffs = s.pressCoeffs := by
  simp [State.pressCoeffs, State.readCoeff, State.coeff_congr h]

/-- In a store whose registers all hold values both lookups succeed. -/
theorem State.coeffs_ok {s : State} (h : ∀ c, (s.coeff c).isSome) :
    (∃ k, s.tempCoeffs = .ok k) ∧ ∃ k, s.pressCoeffs = .ok k := by
  choose w hw using fun c => Option.isSome_iff_exists.1 (h c)
  exact ⟨⟨_, State.tempCoeffs_of (hw _) (hw _) (hw _)⟩,
    _, State.pressCoeffs_of (hw _) (hw _) (hw _) (hw _) (hw _) (hw _) (hw _) (hw _) (hw _)⟩

/-- The temperature phase on three bytes, whole (R95). -/
theorem tempPhase_bytes {s : State} {k : TempCoeffs} {b0 b1 b2 : Byte} (hk : s.tempCoeffs = .ok k)
    (h : s.nextAnswer.1 = .bytes b0 b1 b2) :
    tempPhase s =
      .ok (.done (compT (BitVec.ofNat 20 (4096 * b0.toNat + 16 * b1.toNat + b2.toNat / 16)) k).tCenti
        ((s.nextAnswer.2.observe (.read24 Config.addrTempData)
          (some (.data (BitVec.ofNat 24 (65536 * b0.toNat + 256 * b1.toNat + b2.toNat))))).setTFine
            (compT (BitVec.ofNat 20 (4096 * b0.toNat + 16 * b1.toNat + b2.toNat / 16)) k).fine)) := by
  rw [tempPhase, sample_bytes h, read24_assemble, sampleOf_bytes]
  simp only
  rw [State.tempCoeffs_congr (s := s) (by simp), hk]

/-- The pressure phase on three bytes, whole (R96). -/
theorem pressPhase_bytes {s : State} {k : PressCoeffs} {f : Fine} {b0 b1 b2 : Byte} (hk : s.pressCoeffs = .ok k)
    (hf : s.tFine = some f) (h : s.nextAnswer.1 = .bytes b0 b1 b2) :
    pressPhase s =
      .ok (.done (compP (BitVec.ofNat 20 (4096 * b0.toNat + 16 * b1.toNat + b2.toNat / 16)) f.toInt k)
        (s.nextAnswer.2.observe (.read24 Config.addrPressureData)
          (some (.data (BitVec.ofNat 24 (65536 * b0.toNat + 256 * b1.toNat + b2.toNat)))))) := by
  rw [pressPhase, sample_bytes h, read24_assemble, sampleOf_bytes]
  simp only
  rw [State.pressCoeffs_congr (s := s) (by simp), hk]
  simp only [State.readTFine, State.observe_tFine, State.nextAnswer_tFine, hf]

/-- The temperature phase that succeeds: its one event delivers the burst, and `T_FINE` holds the fine temperature of the
sample in it (R95, R96). -/
theorem tempPhase_done {s t : State} {n : Int} (h : tempPhase s = .ok (.done n t)) :
    ∃ w k u, sample Config.addrTempData s = .done (sampleOf w) u ∧ s.tempCoeffs = .ok k ∧
      Transacted s u [⟨.read24 Config.addrTempData, some (.data w)⟩] ∧ u.outstanding = s.outstanding ∧
      n = (compT (sampleOf w) k).tCenti ∧ t = u.setTFine (compT (sampleOf w) k).fine := by
  unfold tempPhase at h
  cases hs : sample Config.addrTempData s with
  | raised e u => simp [hs] at h
  | hung u => simp [hs] at h
  | done a u =>
    obtain ⟨w, rfl, hu, hT, ho⟩ := sample_done hs
    cases hk : u.tempCoeffs with
    | error f => simp [hs, hk] at h
    | ok k =>
      simp only [hs, hk, Except.ok.injEq, Flow.done.injEq] at h
      obtain ⟨rfl, rfl⟩ := h
      exact ⟨w, k, u, rfl, by rw [← State.tempCoeffs_congr hT.cal, hk], hT, ho, rfl, rfl⟩

theorem tempPhase_raised {s t : State} {e : ErrorKind} (h : tempPhase s = .ok (.raised e t)) :
    sample Config.addrTempData s = .raised e t := by
  unfold tempPhase at h
  cases hs : sample Config.addrTempData s with
  | raised e u => simpa [hs] using h
  | hung u => simp [hs] at h
  | done a u => cases hk : u.tempCoeffs <;> simp [hs, hk] at h

theorem tempPhase_hung {s t : State} (h : tempPhase s = .ok (.hung t)) : sample Config.addrTempData s = .hung t := by
  unfold tempPhase at h
  cases hs : sample Config.addrTempData s with
  | raised e u => simp [hs] at h
  | hung u => simpa [hs] using h
  | done a u => cases hk : u.tempCoeffs <;> simp [hs, hk] at h

/-- The pressure phase that succeeds: its one event delivers the burst, and COMP_P takes the content of `T_FINE` (R96). -/
theorem pressPhase_done {s t : State} {n : Int} (h : pressPhase s = .ok (.done n t)) :
    ∃ w k f, sample Config.addrPressureData s = .done (sampleOf w) t ∧ s.pressCoeffs = .ok k ∧ s.tFine = some f ∧
      Transacted s t [⟨.read24 Config.addrPressureData, some (.data w)⟩] ∧ t.outstanding = s.outstanding ∧
      n = compP (sampleOf w) f.toInt k := by
  unfold pressPhase at h
  cases hs : sample Config.addrPressureData s with
  | raised e u => simp [hs] at h
  | hung u => simp [hs] at h
  | done a u =>
    obtain ⟨w, rfl, hu, hT, ho⟩ := sample_done hs
    cases hk : u.pressCoeffs with
    | error f => simp [hs, hk] at h
    | ok k =>
      cases hf : u.tFine with
      | none => simp [hs, hk, State.readTFine, hf] at h
      | some f =>
        simp only [hs, hk, State.readTFine, hf, Except.ok.injEq, Flow.done.injEq] at h
        obtain ⟨rfl, rfl⟩ := h
        exact ⟨w, k, f, rfl, by rw [← State.pressCoeffs_congr hT.cal, hk], by rw [← hT.tFine, hf], hT, ho, rfl⟩

theorem pressPhase_raised {s t : State} {e : ErrorKind} (h : pressPhase s = .ok (.raised e t)) :
    sample Config.addrPressureData s = .raised e t := by
  unfold pressPhase at h
  cases hs : sample Config.addrPressureData s with
  | raised e u => simpa [hs] using h
  | hung u => simp [hs] at h
  | done a u =>
    cases hk : u.pressCoeffs with
    | error f => simp [hs, hk] at h
    | ok k => cases hf : u.readTFine <;> simp [hs, hk, hf] at h

theorem pressPhase_hung {s t : State} (h : pressPhase s = .ok (.hung t)) :
    sample Config.addrPressureData s = .hung t := by
  unfold pressPhase at h
  cases hs : sample Config.addrPressureData s with
  | raised e u => simp [hs] at h
  | hung u => simpa [hs] using h
  | done a u =>
    cases hk : u.pressCoeffs with
    | error f => simp [hs, hk] at h
    | ok k => cases hf : u.readTFine <;> simp [hs, hk, hf] at h

/-- Where the coefficients hold values, the temperature phase does not fault, whatever is answered (R95). -/
theorem tempPhase_total {s : State} {k : TempCoeffs} (hk : s.tempCoeffs = .ok k) : ∃ c, tempPhase s = .ok c := by
  cases h : s.nextAnswer.1 with
  | fail => rw [tempPhase, sample_fail h]; exact ⟨_, rfl⟩
  | never => rw [tempPhase, sample_never h]; exact ⟨_, rfl⟩
  | bytes b0 b1 b2 => rw [tempPhase_bytes hk h]; exact ⟨_, rfl⟩

/-- Where the coefficients and `T_FINE` hold values, the pressure phase does not fault, whatever is answered (R96). -/
theorem pressPhase_total {s : State} {k : PressCoeffs} {f : Fine} (hk : s.pressCoeffs = .ok k) (hf : s.tFine = some f) :
    ∃ c, pressPhase s = .ok c := by
  cases h : s.nextAnswer.1 with
  | fail => rw [pressPhase, sample_fail h]; exact ⟨_, rfl⟩
  | never => rw [pressPhase, sample_never h]; exact ⟨_, rfl⟩
  | bytes b0 b1 b2 => rw [pressPhase_bytes hk hf h]; exact ⟨_, rfl⟩

/-- A reading command that answers a next state did its steps without a fault. -/
theorem finishReading_next {r : Except Fault (Flow Int)} {t : State} (h : finishReading r = .next t) :
    ∃ c, r = .ok c ∧ t = c.finish fun n => BitVec.ofInt 64 n := by
  cases r with
  | error f => simp [finishReading] at h
  | ok c => exact ⟨c, rfl, by simpa [finishReading] using h.symm⟩

/-! ### When a command stops (R22) -/

theorem State.readCoeff_error {s : State} {c : Coeff} {f : Fault} (h : s.readCoeff c = .error f) :
    f = .coeffNoValue c ∧ s.coeff c = none := by
  unfold State.readCoeff at h
  split at h
  · cases h
  · rename_i hc; cases h; exact ⟨rfl, hc⟩

/-- A lookup after another fails where the one fails or, that done, where the other does. -/
theorem except_bind_error {α β : Type} {x : Except Fault α} {g : α → Except Fault β} {f : Fault}
    (h : (x >>= g) = .error f) : x = .error f ∨ ∃ a, g a = .error f := by
  cases x with
  | error e =>
    have he : e = f := by simpa [bind, Except.bind] using h
    exact .inl (congrArg _ he)
  | ok a => exact .inr ⟨a, h⟩

/-- The lookups of COMP_T fail only at a coefficient register that holds no value. -/
theorem State.tempCoeffs_error {s : State} {f : Fault} (h : s.tempCoeffs = .error f) :
    ∃ c, f = .coeffNoValue c ∧ s.coeff c = none := by
  unfold State.tempCoeffs at h
  obtain h | ⟨_, h⟩ := except_bind_error h
  · exact ⟨_, readCoeff_error h⟩
  obtain h | ⟨_, h⟩ := except_bind_error h
  · exact ⟨_, readCoeff_error h⟩
  obtain h | ⟨_, h⟩ := except_bind_error h
  · exact ⟨_, readCoeff_error h⟩
  cases h

/-- The lookups of COMP_P fail only at a coefficient register that holds no value. -/
theorem State.pressCoeffs_error {s : State} {f : Fault} (h : s.pressCoeffs = .error f) :
    ∃ c, f = .coeffNoValue c ∧ s.coeff c = none := by
  unfold State.pressCoeffs at h
  iterate 9
    obtain h | ⟨_, h⟩ := except_bind_error h
    · exact ⟨_, readCoeff_error h⟩
  cases h

theorem tempPhase_error {s : State} {f : Fault} (h : tempPhase s = .error f) :
    ∃ c, f = .coeffNoValue c ∧ s.coeff c = none := by
  unfold tempPhase at h
  cases hs : sample Config.addrTempData s with
  | raised e u => simp [hs] at h
  | hung u => simp [hs] at h
  | done a u =>
    obtain ⟨w, -, -, hT, -⟩ := sample_done hs
    cases hk : u.tempCoeffs with
    | ok k => simp [hs, hk] at h
    | error e =>
      simp only [hs, hk, Except.error.injEq] at h; subst h
      exact State.tempCoeffs_error ((State.tempCoeffs_congr hT.cal).symm.trans hk)

/-- The pressure phase, entered with a value in `T_FINE`, faults only at a coefficient register that holds none. -/
theorem pressPhase_error {s : State} {f : Fault} {v : Fine} (hf : s.tFine = some v) (h : pressPhase s = .error f) :
    ∃ c, f = .coeffNoValue c ∧ s.coeff c = none := by
  cases hk : s.pressCoeffs with
  | ok k =>
    obtain ⟨c, hc⟩ := pressPhase_total hk hf
    rw [hc] at h; cases h
  | error e =>
    unfold pressPhase at h
    cases hs : sample Config.addrPressureData s with
    | raised e u => simp [hs] at h
    | hung u => simp [hs] at h
    | done a u =>
      obtain ⟨w, -, -, hT, -⟩ := sample_done hs
      rw [hs] at h
      simp only [(State.pressCoeffs_congr hT.cal).trans hk, Except.error.injEq] at h
      subst h; exact State.pressCoeffs_error hk

/-- The inversion of a fault of `exec`: in `Ready`, a coefficient register that holds no value was read (R22). In
particular no command reads `T_FINE` while it holds no value (R16), whatever the state. -/
theorem exec_fault {i : Instr} {s : State} {f : Fault} (h : exec i s = .fault f) :
    s.control = .ready ∧ ∃ c, f = .coeffNoValue c ∧ s.coeff c = none := by
  by_cases hv : validIn i s.control = false
  · rw [exec_refused hv] at h; cases h
  cases hc : s.control <;> cases i <;> simp only [hc, validIn, not_true, Bool.not_eq_false] at hv
  · rw [exec_begin hc] at h; cases h
  · rw [exec_readTemperature hc] at h
    cases hp : tempPhase s with
    | ok c => simp [hp, finishReading] at h
    | error e =>
      simp only [hp, finishReading, Host.Outcome.fault.injEq] at h; subst h
      exact ⟨rfl, tempPhase_error hp⟩
  · rw [exec_readPressure hc, readPressureSteps] at h
    refine ⟨rfl, ?_⟩
    cases hp : tempPhase s with
    | error e =>
      simp only [hp, finishReading, Host.Outcome.fault.injEq] at h; subst h
      exact tempPhase_error hp
    | ok d =>
      cases d with
      | raised e u => simp [hp, finishReading] at h
      | hung u => simp [hp, finishReading] at h
      | done n u =>
        obtain ⟨w, k, x, -, -, hT, -, -, rfl⟩ := tempPhase_done hp
        cases hq : pressPhase (x.setTFine (compT (sampleOf w) k).fine) with
        | ok c => simp [hp, hq, finishReading] at h
        | error e =>
          simp only [hp, hq, finishReading, Host.Outcome.fault.injEq] at h; subst h
          obtain ⟨c, hf, hn⟩ := pressPhase_error rfl hq
          exact ⟨c, hf, (State.coeff_congr (s := s) hT.cal.symm c).trans hn⟩
  · rw [exec_reset hc] at h; cases h

/-! ### What a command can do, said once -/

/-- What every command leaves, whichever way it ends: `es` are its transport events. -/
structure Ran (s t : State) (es : List TpEvent) : Prop where
  params : t.params = s.params
  inputs : t.inputs = s.inputs
  trace : t.trace = s.trace ++ es
  answers : t.answers = s.answers.drop es.length
  drawn : t.drawn = s.drawn + (es.length - s.answers.length)
  replies : ∀ (j : Nat) (e : TpEvent), es[j]? = some e → e.reply = e.request.replyTo (s.answerAt j)

/-- The four ways a command ends (R91, R92, R131), with `full` the requests of its success path. -/
inductive Ending (s t : State) (es : List TpEvent) (full : List TpRequest) : Prop where
  | refused (h : t = s.takeError .state) (hes : es = [])
  | ok (v : Value) (h : t.responses = s.responses ++ [⟨.ok, v⟩]) (ho : t.outstanding = s.outstanding)
      (hq : es.map TpEvent.request = full) (hd : ∀ e ∈ es, e.delivered)
  | raised (k : ErrorKind) (fs : List TpEvent) (e : TpEvent) (hes : es = fs ++ [e])
      (h : t.responses = s.responses ++ [⟨k.status, 0#64⟩]) (ho : t.outstanding = s.outstanding)
      (hq : es.map TpEvent.request <+: full) (hd : ∀ e ∈ fs, e.delivered)
      (hk : k = .transport ∧ e.reply = some .failure ∨ k = .chipId ∧ e.delivered)
  | hung (q : TpRequest) (fs : List TpEvent) (hes : es = fs ++ [⟨q, none⟩]) (h : t.responses = s.responses)
      (ho : t.outstanding = some q) (hq : es.map TpEvent.request <+: full) (hd : ∀ e ∈ fs, e.delivered)

/-- However a command ends, its requests are a prefix of its tabled ones (R101, R111). -/
theorem Ending.requests_prefix {s t : State} {es : List TpEvent} {full : List TpRequest} (h : Ending s t es full) :
    es.map TpEvent.request <+: full := by
  cases h with
  | refused h hes => subst hes; exact List.nil_prefix
  | ok v h ho hq hd => exact hq ▸ List.prefix_rfl
  | raised k fs e hes h ho hq hd hk => exact hq
  | hung q fs hes h ho hq hd => exact hq

theorem Transacted.ran {s t : State} {es : List TpEvent} (h : Transacted s t es) : Ran s t es :=
  ⟨h.params, h.inputs, h.trace, h.answers, h.drawn, h.replies⟩

/-- A command whose flow follows its tabled requests ends as the flow does, whatever registers its last step writes. -/
theorem Flow.Follows.ending {α : Type} {s : State} {full : List TpRequest} {c : Flow α} (h : c.Follows s full)
    (value : α → Value) :
    ∃ es, Ran s (c.finish value) es ∧ Ending s (c.finish value) es full := by
  cases c with
  | done a t =>
    obtain ⟨es, h1, h2, h3, h4⟩ := h
    exact ⟨es, ⟨h1.params, h1.inputs, h1.trace, h1.answers, h1.drawn, h1.replies⟩,
      .ok (value a) (by simp [Flow.finish, h1.responses]) h2 h3 h4⟩
  | raised k t =>
    obtain ⟨es, e, h1, h2, h3, h4, h5⟩ := h
    exact ⟨es ++ [e], ⟨h1.params, h1.inputs, h1.trace, h1.answers, h1.drawn, h1.replies⟩,
      .raised k es e rfl (by simp [Flow.finish, h1.responses]) h2 h3 h4 h5⟩
  | hung t =>
    obtain ⟨es, q, h1, h2, h3, h4⟩ := h
    have hR : Ran s ((Flow.hung t : Flow α).finish value) (es ++ [⟨q, none⟩]) := h1.ran
    exact ⟨es ++ [⟨q, none⟩], hR, .hung q es rfl h1.responses h2 (by simpa using h3) h4⟩

/-- Writing registers changes neither what a command ran nor how it ended. -/
theorem Ending.of_registers {s t t' : State} {es : List TpEvent} {full : List TpRequest} (hne : es ≠ [])
    (h : Ran s t es ∧ Ending s t es full) (hp : t'.params = t.params) (hi : t'.inputs = t.inputs)
    (ht : t'.trace = t.trace) (ha : t'.answers = t.answers) (hd : t'.drawn = t.drawn)
    (hr : t'.responses = t.responses) (ho : t'.outstanding = t.outstanding) :
    Ran s t' es ∧ Ending s t' es full := by
  refine ⟨⟨hp.trans h.1.params, hi.trans h.1.inputs, ht.trans h.1.trace, ha.trans h.1.answers, hd.trans h.1.drawn, h.1.replies⟩, ?_⟩
  cases h.2 with
  | refused _ hes => exact absurd hes hne
  | ok v h1 h2 h3 h4 => exact .ok v (hr.trans h1) (ho.trans h2) h3 h4
  | raised k fs e h1 h2 h3 h4 h5 h6 => exact .raised k fs e h1 (hr.trans h2) (ho.trans h3) h4 h5 h6
  | hung q fs h1 h2 h3 h4 h5 => exact .hung q fs h1 (hr.trans h2) (ho.trans h3) h4 h5

theorem beginSteps_ending (s : State) : ∃ es, Ran s ((beginSteps s).finish fun _ => 0#64) es ∧
    Ending s ((beginSteps s).finish fun _ => 0#64) es (successTrace s.params.chipIdCheck .begin) := by
  obtain ⟨es, hR, hE⟩ := (beginReads_follows s).ending (fun _ => 0#64)
  refine ⟨es, ?_⟩
  rw [beginSteps_eq]
  cases hc : beginReads s with
  | raised k t => rw [hc] at hR hE; exact ⟨hR, hE⟩
  | hung t => rw [hc] at hR hE; exact ⟨hR, hE⟩
  | done stage t =>
    rw [hc] at hR hE
    have hne : es ≠ [] := by
      rintro rfl
      have := beginReads_follows s; rw [hc] at this
      obtain ⟨fs, h1, -, h3, -⟩ := this
      have ht := hR.trace
      simp only [Flow.finish, State.respond_trace, h1.trace, List.append_cancel_left_eq] at ht
      subst ht
      simp [successTrace] at h3
    exact Ending.of_registers hne ⟨hR, hE⟩ rfl rfl rfl rfl rfl rfl rfl

theorem resetSteps_ending (s : State) : ∃ es, Ran s ((resetSteps s).finish fun _ => 0#64) es ∧
    Ending s ((resetSteps s).finish fun _ => 0#64) es (successTrace s.params.chipIdCheck .reset) := by
  have hF := writeByte_follows Config.addrSoftReset Config.softResetValue s
  obtain ⟨es, hR, hE⟩ := hF.ending (fun _ => 0#64)
  refine ⟨es, ?_⟩
  have hne : es ≠ [] := by
    rintro rfl
    have ht := hR.trace
    cases hc : writeByte Config.addrSoftReset Config.softResetValue s with
    | done a t =>
      rw [hc] at hF ht; obtain ⟨fs, h1, -, h3, -⟩ := hF
      simp only [Flow.finish, State.respond_trace, h1.trace, List.append_cancel_left_eq] at ht
      subst ht; simp at h3
    | raised k t =>
      rw [hc] at hF ht; obtain ⟨fs, e, h1, -⟩ := hF
      simp [Flow.finish, h1.trace] at ht
    | hung t =>
      rw [hc] at hF ht; obtain ⟨fs, e, h1, -⟩ := hF
      simp [Flow.finish, h1.trace] at ht
  unfold resetSteps
  cases hc : writeByte Config.addrSoftReset Config.softResetValue s with
  | raised k t => rw [hc] at hR hE; exact Ending.of_registers hne ⟨hR, hE⟩ rfl rfl rfl rfl rfl rfl rfl
  | hung t => rw [hc] at hR hE; exact ⟨hR, hE⟩
  | done u t => rw [hc] at hR hE; exact Ending.of_registers hne ⟨hR, hE⟩ rfl rfl rfl rfl rfl rfl rfl

theorem tempPhase_ending {s : State} {c : Flow Int} (h : tempPhase s = .ok c) (value : Int → Value) :
    ∃ es, Ran s (c.finish value) es ∧ Ending s (c.finish value) es [.read24 Config.addrTempData] := by
  have hF := sample_follows Config.addrTempData s
  cases c with
  | raised e t =>
    rw [tempPhase_raised h] at hF
    have hG : (Flow.raised e t : Flow Int).Follows s [.read24 Config.addrTempData] := hF
    exact hG.ending value
  | hung t =>
    rw [tempPhase_hung h] at hF
    have hG : (Flow.hung t : Flow Int).Follows s [.read24 Config.addrTempData] := hF
    exact hG.ending value
  | done n t =>
    obtain ⟨w, k, u, hs, -, hT, ho, -, rfl⟩ := tempPhase_done h
    exact ⟨_, ⟨hT.params, hT.inputs, hT.trace, hT.answers, hT.drawn, hT.replies⟩,
      .ok (value n) (by simp [Flow.finish, hT.responses]) ho rfl (by simp [TpEvent.delivered])⟩

theorem readPressureSteps_ending {s : State} {c : Flow Int} (h : readPressureSteps s = .ok c) (value : Int → Value) :
    ∃ es, Ran s (c.finish value) es ∧
      Ending s (c.finish value) es [.read24 Config.addrTempData, .read24 Config.addrPressureData] := by
  unfold readPressureSteps at h
  cases hp : tempPhase s with
  | error f => simp [hp] at h
  | ok d =>
    cases d with
    | raised e t =>
      simp only [hp, Except.ok.injEq] at h; subst h
      have hF := sample_follows Config.addrTempData s
      rw [tempPhase_raised hp] at hF
      obtain ⟨es, e', h1, h2, h3, h4, h5⟩ := hF
      exact Flow.Follows.ending (c := .raised e t) ⟨es, e', h1, h2, h3.trans ⟨[_], rfl⟩, h4, h5⟩ value
    | hung t =>
      simp only [hp, Except.ok.injEq] at h; subst h
      have hF := sample_follows Config.addrTempData s
      rw [tempPhase_hung hp] at hF
      obtain ⟨es, e', h1, h2, h3, h4⟩ := hF
      exact Flow.Follows.ending (c := .hung t) ⟨es, e', h1, h2, h3.trans ⟨[_], rfl⟩, h4⟩ value
    | done n t =>
      simp only [hp] at h
      obtain ⟨w, k, u, hs, -, hT, ho, -, rfl⟩ := tempPhase_done hp
      set t := u.setTFine (compT (sampleOf w) k).fine with ht
      have hF := sample_follows Config.addrPressureData t
      have two : ∀ {v : State} {fs : List TpEvent}, Transacted t v fs →
          Ran s v ([⟨.read24 Config.addrTempData, some (.data w)⟩] ++ fs) ∧ v.responses = s.responses := by
        intro v fs hv
        have hU : Transacted u { v with tFine := u.tFine } fs :=
          ⟨hv.control, hv.cal, rfl, hv.params, hv.inputs, hv.responses, hv.trace, hv.answers, hv.drawn, hv.replies⟩
        have := hT.trans hU
        exact ⟨⟨this.params, this.inputs, this.trace, this.answers, this.drawn, this.replies⟩, this.responses⟩
      cases c with
      | raised e v =>
        rw [pressPhase_raised h] at hF
        obtain ⟨es, e', h1, h2, h3, h4, h5⟩ := hF
        obtain ⟨hR, hr⟩ := two h1
        refine ⟨_, ⟨hR.params, hR.inputs, hR.trace, hR.answers, hR.drawn, hR.replies⟩,
          .raised e (⟨.read24 Config.addrTempData, some (.data w)⟩ :: es) e' rfl (by simp [Flow.finish, hr])
            (h2.trans ho) ?_ ?_ h5⟩
        · simpa using h3
        · simpa [TpEvent.delivered] using h4
      | hung v =>
        rw [pressPhase_hung h] at hF
        obtain ⟨es, q, h1, h2, h3, h4⟩ := hF
        obtain ⟨hR, hr⟩ := two h1
        refine ⟨_, hR, .hung q (⟨.read24 Config.addrTempData, some (.data w)⟩ :: es) rfl hr h2 ?_ ?_⟩
        · simpa using h3
        · simpa [TpEvent.delivered] using h4
      | done m v =>
        obtain ⟨w', k', f, hs', -, -, hT', ho', -⟩ := pressPhase_done h
        obtain ⟨hR, hr⟩ := two hT'
        exact ⟨_, ⟨hR.params, hR.inputs, hR.trace, hR.answers, hR.drawn, hR.replies⟩,
          .ok (value m) (by simp [Flow.finish, hr]) (ho'.trans ho) rfl (by simp [TpEvent.delivered])⟩

/-- The inversion of `exec`: a command that answers a next state ran some transport events, a prefix of the tabled
ones, and ended in one of the four ways. -/
theorem exec_cases {i : Instr} {s t : State} (h : exec i s = .next t) :
    ∃ es, Ran s t es ∧ Ending s t es (successTrace s.params.chipIdCheck i) := by
  by_cases hv : validIn i s.control = false
  · rw [exec_refused hv] at h; cases h
    exact ⟨[], by constructor <;> simp, .refused rfl rfl⟩
  · cases hc : s.control <;> cases i <;> simp only [hc, validIn, not_true, Bool.not_eq_false] at hv
    · rw [exec_begin hc] at h; cases h; exact beginSteps_ending s
    · rw [exec_readTemperature hc] at h
      obtain ⟨c, hp, rfl⟩ := finishReading_next h
      exact tempPhase_ending hp _
    · rw [exec_readPressure hc] at h
      obtain ⟨c, hp, rfl⟩ := finishReading_next h
      exact readPressureSteps_ending hp _
    · rw [exec_reset hc] at h; cases h; exact resetSteps_ending s

end Sys2Proof.Machine
end

