-- ==== Sys2Proof/Laws/Effects.lean ====
section
/-!
SUPPORT. Laws/Effects.lean: what a command does to the registers, said once, with what its transport events say of the
temperature sample.
-/

namespace Sys2Proof.Machine

/-- The four ways a command treats the registers `STATE`, `cal` and `T_FINE` (R100). -/
inductive Wrote (i : Instr) (s t : State) : Prop where
  /-- Nothing written, and no temperature sample read. -/
  | nothing (hc : t.control = s.control) (hcal : t.cal = s.cal) (hf : t.tFine = s.tFine)
      (hl : lastTempSample t.trace = lastTempSample s.trace)
  /-- BEGIN that fully succeeds. -/
  | begun (hi : i = .begin) (hs : s.control = .uninitialized) (hc : t.control = .ready) (hf : t.tFine = none)
      (hcal : ∀ c, (t.coeff c).isSome) (hr : t.responses = s.responses ++ [⟨.ok, 0#64⟩])
      (ho : t.outstanding = s.outstanding)
  /-- A reading command whose temperature phase completed. -/
  | sampled (hi : i = .readTemperature ∨ i = .readPressure) (hs : s.control = .ready) (hc : t.control = .ready)
      (hcal : t.cal = s.cal) (w : Burst) (k : TempCoeffs) (hk : s.tempCoeffs = .ok k)
      (hf : t.tFine = some (BitVec.ofInt 32 (compT (sampleOf w) k).fine))
      (hl : lastTempSample t.trace = some (sampleOf w))
  /-- RESET whose write completed, successfully or not. -/
  | wiped (hi : i = .reset) (hs : s.control = .ready) (hc : t.control = .uninitialized) (hcal : t.cal = CalStore.none)
      (hf : t.tFine = none) (ho : t.outstanding = s.outstanding)

/-- Events none of which delivers a temperature sample leave the most recent one as it was. -/
theorem lastTempSample_append {tr es : List TpEvent} (h : ∀ e ∈ es, e.tempSample = none) :
    lastTempSample (tr ++ es) = lastTempSample tr := by
  have : es.filterMap TpEvent.tempSample = [] := List.filterMap_eq_nil_iff.2 h
  simp [lastTempSample, List.filterMap_append, this]

/-- An event that delivers one is the most recent. -/
theorem lastTempSample_snoc {tr : List TpEvent} {e : TpEvent} {a : RawSample} (h : e.tempSample = some a) :
    lastTempSample (tr ++ [e]) = some a := by
  simp [lastTempSample, List.filterMap_append, h]

theorem TpEvent.tempSample_of_not_read24 {e : TpEvent} (h : ∀ r, e.request ≠ .read24 r) : e.tempSample = none := by
  obtain ⟨q, r⟩ := e
  cases q <;> simp_all [TpEvent.tempSample]

theorem TpEvent.tempSample_of_no_data {e : TpEvent} (h : ∀ d, e.reply ≠ some (.data d)) : e.tempSample = none := by
  obtain ⟨q, r⟩ := e
  unfold TpEvent.tempSample
  split
  · rename_i h1 h2; exact absurd h2 (h _)
  · rfl

theorem tempSample_tempData (w : Burst) :
    (TpEvent.mk (.read24 Config.addrTempData) (some (.data w))).tempSample = some (sampleOf w) := by
  simp [TpEvent.tempSample]

theorem tempSample_pressureData (r : Option TpReply) :
    (TpEvent.mk (.read24 Config.addrPressureData) r).tempSample = none := by
  unfold TpEvent.tempSample
  split
  · rename_i a w h1 h2
    cases h1
    rw [if_neg (by decide)]
  · rfl

/-- No request of BEGIN or RESET reads a data register. -/
theorem successTrace_no_burst {b : Bool} {i : Instr} (hi : i = .begin ∨ i = .reset) :
    ∀ q ∈ successTrace b i, ∀ r, q ≠ .read24 r := by
  rcases hi with rfl | rfl <;> cases b <;> simp [successTrace, calTrace, Coeff.all]

theorem no_temp_sample {s t : State} {i : Instr} {es : List TpEvent} (hi : i = .begin ∨ i = .reset)
    (hR : Ran s t es) (hE : Ending s t es (successTrace s.params.chipIdCheck i)) :
    lastTempSample t.trace = lastTempSample s.trace := by
  rw [hR.trace]
  refine lastTempSample_append fun e he => TpEvent.tempSample_of_not_read24 fun r hr => ?_
  exact successTrace_no_burst hi _ (hE.requests_prefix.subset (List.mem_map_of_mem he)) r hr

theorem exec_wrote {i : Instr} {s t : State} (h : exec i s = .next t) : Wrote i s t := by
  obtain ⟨es, hR, hE⟩ := exec_cases h
  by_cases hv : validIn i s.control = false
  · rw [exec_refused hv] at h; cases h; exact .nothing rfl rfl rfl rfl
  cases hc : s.control <;> cases i <;> simp only [hc, validIn, not_true, Bool.not_eq_false] at hv
  · -- BEGIN
    have hl := no_temp_sample (.inl rfl) hR hE
    rw [exec_begin hc] at h; cases h
    rw [beginSteps_eq]
    rw [beginSteps_eq] at hl
    have hF := beginReads_follows s
    cases hb : beginReads s with
    | raised k u =>
      rw [hb] at hF hl; obtain ⟨_, _, hT, -⟩ := hF
      exact .nothing hT.control hT.cal hT.tFine hl
    | hung u =>
      rw [hb] at hF hl; obtain ⟨_, _, hT, -⟩ := hF
      exact .nothing hT.control hT.cal hT.tFine hl
    | done stage u =>
      rw [hb] at hF; obtain ⟨_, hT, ho, -⟩ := hF
      exact .begun rfl hc rfl rfl (fun c => commit_isSome (beginReads_stage hb) c)
        (by simp [Flow.andThen, Flow.finish, hT.responses]) (by simp [Flow.andThen, Flow.finish, ho])
  · -- READ_TEMPERATURE
    rw [exec_readTemperature hc] at h
    obtain ⟨c, hp, rfl⟩ := finishReading_next h
    have hF := sample_follows Config.addrTempData s
    cases c with
    | raised e u =>
      rw [tempPhase_raised hp] at hF; obtain ⟨fs, e', hT, -, hq, -, hk⟩ := hF
      have : fs = [] := by simpa using hq.length_le
      subst this
      refine .nothing hT.control hT.cal hT.tFine ?_
      rcases hk with ⟨-, hk⟩ | ⟨rfl, hk⟩
      · simp only [Flow.finish, State.takeError_trace, hT.trace]
        exact lastTempSample_append (by simpa using TpEvent.tempSample_of_no_data (by simp [hk]))
      · exact absurd (tempPhase_raised hp) (by
          simp only [sample, read24, transact]; cases s.nextAnswer.1 <;> simp [Flow.map])
    | hung u =>
      rw [tempPhase_hung hp] at hF; obtain ⟨fs, q, hT, -, hq, -⟩ := hF
      have : fs = [] := by simpa using hq.length_le
      subst this
      refine .nothing hT.control hT.cal hT.tFine ?_
      simp only [Flow.finish, hT.trace]
      exact lastTempSample_append (by simpa using TpEvent.tempSample_of_no_data (by simp))
    | done n u =>
      obtain ⟨w, k, v, hs, hk, hT, ho, -, rfl⟩ := tempPhase_done hp
      refine .sampled (.inl rfl) hc (hT.control.trans hc) hT.cal w k hk rfl ?_
      simp only [Flow.finish, State.respond_trace, State.setTFine_trace, hT.trace]
      exact lastTempSample_snoc (tempSample_tempData w)
  · -- READ_PRESSURE
    rw [exec_readPressure hc] at h
    obtain ⟨c, hp, rfl⟩ := finishReading_next h
    unfold readPressureSteps at hp
    cases hp1 : tempPhase s with
    | error f => simp [hp1] at hp
    | ok d =>
      cases d with
      | raised e u =>
        simp only [hp1, Except.ok.injEq] at hp; subst hp
        have hF := sample_follows Config.addrTempData s
        rw [tempPhase_raised hp1] at hF; obtain ⟨fs, e', hT, -, hq, -, hk⟩ := hF
        have : fs = [] := by simpa using hq.length_le
        subst this
        refine .nothing hT.control hT.cal hT.tFine ?_
        rcases hk with ⟨-, hk⟩ | ⟨rfl, hk⟩
        · simp only [Flow.finish, State.takeError_trace, hT.trace]
          exact lastTempSample_append (by simpa using TpEvent.tempSample_of_no_data (by simp [hk]))
        · exact absurd (tempPhase_raised hp1) (by
            simp only [sample, read24, transact]; cases s.nextAnswer.1 <;> simp [Flow.map])
      | hung u =>
        simp only [hp1, Except.ok.injEq] at hp; subst hp
        have hF := sample_follows Config.addrTempData s
        rw [tempPhase_hung hp1] at hF; obtain ⟨fs, q, hT, -, hq, -⟩ := hF
        have : fs = [] := by simpa using hq.length_le
        subst this
        refine .nothing hT.control hT.cal hT.tFine ?_
        simp only [Flow.finish, hT.trace]
        exact lastTempSample_append (by simpa using TpEvent.tempSample_of_no_data (by simp))
      | done n u =>
        simp only [hp1] at hp
        obtain ⟨w, k, v, hs, hk, hT, ho, -, rfl⟩ := tempPhase_done hp1
        have hF := sample_follows Config.addrPressureData (v.setTFine (compT (sampleOf w) k).fine)
        have key : ∀ {x : State} {fs : List TpEvent},
            Transacted (v.setTFine (compT (sampleOf w) k).fine) x fs →
            fs.map TpEvent.request <+: [.read24 Config.addrPressureData] →
            x.control = .ready ∧ x.cal = s.cal ∧ x.tFine = some (BitVec.ofInt 32 (compT (sampleOf w) k).fine) ∧
              lastTempSample x.trace = some (sampleOf w) := by
          intro x fs hx hq
          refine ⟨hx.control.trans (hT.control.trans hc), hx.cal.trans hT.cal, hx.tFine, ?_⟩
          rw [hx.trace, State.setTFine_trace, hT.trace, lastTempSample_append]
          · exact lastTempSample_snoc (tempSample_tempData w)
          · intro e he
            have hm := hq.subset (List.mem_map_of_mem he)
            obtain ⟨q, r⟩ := e
            simp only [List.mem_singleton] at hm; subst hm
            exact tempSample_pressureData r
        cases c with
        | raised e x =>
          rw [pressPhase_raised hp] at hF; obtain ⟨fs, e', hx, -, hq, -⟩ := hF
          obtain ⟨h1, h2, h3, h4⟩ := key hx hq
          exact .sampled (.inr rfl) hc h1 h2 w k hk h3 h4
        | hung x =>
          rw [pressPhase_hung hp] at hF; obtain ⟨fs, q, hx, -, hq, -⟩ := hF
          obtain ⟨h1, h2, h3, h4⟩ := key hx (by simpa using hq)
          exact .sampled (.inr rfl) hc h1 h2 w k hk h3 h4
        | done m x =>
          obtain ⟨w', k', f, -, -, -, hx, -, -⟩ := pressPhase_done hp
          obtain ⟨h1, h2, h3, h4⟩ := key hx (by simp)
          exact .sampled (.inr rfl) hc h1 h2 w k hk h3 h4
  · -- RESET
    have hl := no_temp_sample (.inr rfl) hR hE
    rw [exec_reset hc] at h; cases h
    have hF := writeByte_follows Config.addrSoftReset Config.softResetValue s
    unfold resetSteps
    unfold resetSteps at hl
    cases hw : writeByte Config.addrSoftReset Config.softResetValue s with
    | raised k u =>
      rw [hw] at hF; obtain ⟨_, _, hT, ho, -⟩ := hF
      exact .wiped rfl hc rfl rfl rfl (by simp [Flow.finish, ho])
    | hung u =>
      rw [hw] at hF hl; obtain ⟨_, _, hT, -⟩ := hF
      exact .nothing hT.control hT.cal hT.tFine hl
    | done a u =>
      rw [hw] at hF; obtain ⟨_, hT, ho, -⟩ := hF
      exact .wiped rfl hc rfl rfl rfl (by simp [Flow.finish, ho])

end Sys2Proof.Machine
end

