-- ==== Sys2Proof/Laws/PerInstr.lean ====
section
/-!
SUPPORT. Laws/PerInstr.lean: the per-instruction family Codec: a command is well formed, and its word and its written form
both read back as the command (`30_encoding.md` R47, R57).
-/

namespace Sys2Proof.Laws.Codec

/-- What the family says of one command. -/
def Statement (i : Instr) : Prop :=
  i.wf = true ∧ decode (encode i) = i ∧ decodeByte (encodeByte i) = .ok i ∧ decodeTableWord 8 (encode i).toNat = some i

theorem begin : Statement .begin := by unfold Statement; decide

theorem readTemperature : Statement .readTemperature := by unfold Statement; decide

theorem readPressure : Statement .readPressure := by unfold Statement; decide

theorem reset : Statement .reset := by unfold Statement; decide

end Sys2Proof.Laws.Codec
end

