-- ==== Sys2Proof/Laws/Step.lean ====
section
/-!
SUPPORT. Laws/Step.lean: the inversion of `step`: the three ways a step answers a next state.
-/

namespace Sys2Proof.Machine

theorem step_cases {s t : State} (h : step s = .next t) :
    (s.inputs = [] ∧ s.outstanding = none ∧ t = s) ∨
    (∃ rest, s.inputs = .hardwareReset :: rest ∧ t = { s with inputs := rest }.hardwareReset) ∨
    ∃ w rest, s.inputs = .command w :: rest ∧ s.outstanding = none ∧
      exec (decode w) { s with inputs := rest } = .next t := by
  unfold step at h
  split at h
  · rename_i hi
    split at h
    · rename_i ho; cases h; exact .inl ⟨hi, ho, rfl⟩
    · cases h
  · rename_i rest hi; cases h; exact .inr (.inl ⟨rest, hi, rfl⟩)
  · rename_i w rest hi
    split at h
    · rename_i ho; exact .inr (.inr ⟨w, rest, hi, ho, h⟩)
    · cases h

end Sys2Proof.Machine
end

