-- ==== Sys2Proof/Laws/Temperature.lean ====
section
/-!
SUPPORT. Laws/Temperature.lean: the two results of COMP_T by name, and that `T_FINE` holds the fine temperature exactly.
-/

namespace Sys2Proof.Machine

theorem compT_fine (adcT : RawSample) (k : TempCoeffs) : (compT adcT k).fine = compTFine adcT k := by simp only [compT]

theorem compT_tCenti (adcT : RawSample) (k : TempCoeffs) :
    (compT adcT k).tCenti = tCentiOf (compT adcT k).fine := by simp only [compT]

/-- The 32-bit content of `T_FINE` stands for the fine temperature itself (R16). -/
theorem toInt_ofInt_fine (adcT : RawSample) (k : TempCoeffs) :
    (BitVec.ofInt 32 (compT adcT k).fine).toInt = (compT adcT k).fine := by
  rw [compT_fine, compTFine]
  exact toInt_ofInt_of_range (wrap32_ge _) (wrap32_lt _)

end Sys2Proof.Machine
end

