-- ==== Sys2Proof/Tests/Slice0.lean ====
section
/-!
SUPPORT. Tests/Slice0.lean: the model's own tests. Expected values come from spec/: the encoding tables of
`30_encoding.md` and `20_memory.md`, and the vectors of `95_test_vectors.md` (named in each docstring). After them, a
witness for every obligation that has hypotheses: concrete data that meet all of them together.
-/

namespace Sys2Proof.Tests

open Sys2Proof.Machine

/-! ## Small states -/

/-- The next state of an outcome, if it is one. -/
def nextOf (o : Host.Outcome State Fault Refusal) : Option State :=
  match o with
  | .next s => some s
  | .fault _ => none
  | .refused _ => none

/-- The coefficient set REF (`95_test_vectors.md` V-CAL-1). -/
def refWord : Coeff → CalWord
  | .T1 => 0x6B70#16 | .T2 => 0x6743#16 | .T3 => 0xFC18#16 | .P1 => 0x8E7D#16 | .P2 => 0xD643#16 | .P3 => 0x0BD0#16
  | .P4 => 0x0B27#16 | .P5 => 0x008C#16 | .P6 => 0xFFF9#16 | .P7 => 0x3C8C#16 | .P8 => 0xC6F8#16 | .P9 => 0x1770#16

/-- The low byte, the high byte, and the byte a word read does not take. -/
def refLo (c : Coeff) : Byte := (refWord c).extractLsb' 0 8
def refHi (c : Coeff) : Byte := (refWord c).extractLsb' 8 8
def refEx (_ : Coeff) : Byte := 0#8

/-- Hardware reset with the parameters of the spec's programs (`95_test_vectors.md` Part 8) and scripted answers. -/
def fresh (check : Bool) (answers : List Answer) : State :=
  { State.reset with params := ⟨0x58#8, check⟩, answers := answers }

/-- `Ready` with REF loaded and no fine temperature yet. -/
def ready (answers : List Answer) : State :=
  { fresh true answers with
    control := .ready
    cal := CalStore.none.commit (Coeff.all.map fun c => (c, refWord c)) }

/-- The answers to the twelve calibration reads. -/
def refReads : List Answer := Coeff.all.map fun c => .bytes (refLo c) (refHi c) (refEx c)

def setupOk : Answer := .bytes 0#8 0#8 0#8
def idOk : Answer := .bytes 0x58#8 0#8 0#8
def tempBurst : Answer := .bytes 0x7E#8 0xED#8 0x00#8
def pressBurst : Answer := .bytes 0x65#8 0x5A#8 0xC0#8

/-- The state with one more input waiting. -/
def withInput (i : Input) (s : State) : State := { s with inputs := [i] }

/-- A state that hangs in BEGIN's setup. -/
def hanging : State := { fresh true [] with outstanding := some .tpSetup, trace := [⟨.tpSetup, none⟩] }

/-- The device image DEV of `95_test_vectors.md` Part 8, as far as BEGIN reads it. -/
def dev (a : RegAddr) : Byte :=
  if a = 0xD0#8 then 0x58#8
  else ((Coeff.all.find? fun c => c.addr = a).map refLo).getD
    (((Coeff.all.find? fun c => c.addr + 1#8 = a).map refHi).getD 0#8)

/-! ## Well-formedness: each check refuses an ill-formed term -/

theorem test_wf_every_command : ∀ i ∈ Instr.all, i.wf = true := by decide

/-- R47, R56: only bits 1:0 belong to a command word. -/
theorem test_wf_refuses_byte_above_two_bits :
    commandByteWf 0x04#8 = false ∧ commandByteWf 0xFF#8 = false ∧ commandByteWf 0x03#8 = true := by decide

/-- R38, R41: STATUS is never read. -/
theorem test_wf_refuses_status_read :
    (TpRequest.readByte 0xF3#8).issuedByCore = false ∧ (TpRequest.readByte 0xD0#8).issuedByCore = true := by decide

/-- R59: the calibration words start at even addresses. -/
theorem test_wf_refuses_odd_word_read :
    (TpRequest.readWord16LE 0x89#8).issuedByCore = false ∧ (TpRequest.readWord16LE 0xA0#8).issuedByCore = false ∧
    (TpRequest.readWord16LE 0x9E#8).issuedByCore = true := by decide

/-- R66: no burst but the two data registers. -/
theorem test_wf_refuses_calibration_burst :
    (TpRequest.read24 0x88#8).issuedByCore = false ∧ (TpRequest.read24 0xF7#8).issuedByCore = true := by decide

/-- R33: one register is written, with one value. -/
theorem test_wf_refuses_other_writes :
    (TpRequest.writeByte 0xF4#8 0xB6#8).issuedByCore = false ∧ (TpRequest.writeByte 0xE0#8 0x00#8).issuedByCore = false ∧
    (TpRequest.writeByte 0xE0#8 0xB6#8).issuedByCore = true := by decide

/-! ## Decoding: words written out from the tables -/

/-- R47, V-ENC-1: the word 00. -/
theorem test_decode_begin : decode 0b00#2 = .begin ∧ decodeFirst [0b00000000#8, 0xFF#8] = .ok (.begin, [0xFF#8]) := ⟨rfl, rfl⟩
/-- R47, V-ENC-1: the word 01. -/
theorem test_decode_readTemperature :
    decode 0b01#2 = .readTemperature ∧ decodeFirst [0b00000001#8] = .ok (.readTemperature, []) := ⟨rfl, rfl⟩
/-- R47, V-ENC-1: the word 10. -/
theorem test_decode_readPressure :
    decode 0b10#2 = .readPressure ∧ decodeFirst [0b00000010#8] = .ok (.readPressure, []) := ⟨rfl, rfl⟩
/-- R47, V-ENC-1: the word 11. -/
theorem test_decode_reset : decode 0b11#2 = .reset ∧ decodeFirst [0b00000011#8] = .ok (.reset, []) := ⟨rfl, rfl⟩

/-- Log 9: a byte with a bit above 1:0 is no command word, and an empty list has none. -/
theorem test_decode_rejects_by_name :
    decodeFirst [0b00000100#8] = .error (.notACommandWord 0x04#8) ∧ decodeFirst [] = .error .noWord ∧
    decodeProgram [0x00#8, 0x81#8, 0x02#8] = .error (.notACommandWord 0x81#8) := ⟨rfl, rfl, rfl⟩

/-- `95_test_vectors.md` Program C: its encoding as the list of its command words. -/
theorem test_decode_program_c :
    decodeProgram [1#8, 3#8, 0#8, 0#8, 1#8, 3#8, 2#8, 1#8, 0#8, 2#8] =
      .ok [.readTemperature, .reset, .begin, .begin, .readTemperature, .reset, .readPressure, .readTemperature, .begin,
        .readPressure] := rfl

/-- R57: both spellings. -/
theorem test_written_forms :
    Instr.ofWritten "READ_PRESSURE" = some .readPressure ∧ Instr.ofWritten "readPressure()" = some .readPressure ∧
    Instr.ofWritten "CAL_LOAD" = none := by decide

/-! ## Records (`95_test_vectors.md` V-ENC-2, V-ENC-3) -/

theorem test_response_records :
    (Response.mk .ok (BitVec.ofInt 64 2508)).encode = 0b00#2 ++ 0x00000000000009CC#64 ∧
    (Response.mk .ok (BitVec.ofInt 64 (-1264))).encode = 0b00#2 ++ 0xFFFFFFFFFFFFFB10#64 ∧
    (Response.mk .errTransport 0#64).encode = 0b11#2 ++ 0#64 := by decide

theorem test_transport_requests :
    (TpRequest.writeByte 0xE0#8 0xB6#8).tpOp = 0b011#3 ∧ (TpRequest.read24 0xFA#8).tpOp = 0b010#3 ∧
    TpRequest.tpSetup.tpOp = 0b100#3 ∧ TpRequest.ofRecord 0b001#3 0x8C#8 0x77#8 = some (.readWord16LE 0x8C#8) := by decide

theorem test_transport_replies :
    (TpRequest.readByte 0xD0#8).assemble 0x58#8 0x11#8 0x22#8 = 0x000058#24 ∧
    (TpRequest.readWord16LE 0x88#8).assemble 0x70#8 0x6B#8 0x22#8 = 0x006B70#24 ∧
    (TpRequest.read24 0xFA#8).assemble 0x7E#8 0xED#8 0x00#8 = 0x7EED00#24 := by decide

/-! ## One step of each command -/

/-- Program A, step 1: BEGIN loads REF, `Ready`, no fine temperature. -/
theorem test_begin_loads_ref :
    (nextOf (step (withInput (.command 0b00#2) (fresh true (setupOk :: idOk :: refReads))))).map
      (fun t => (t.control, Coeff.all.map t.coeff, t.tFine, t.responses)) =
    some (.ready, Coeff.all.map fun c => some (refWord c), none, [⟨.ok, 0#64⟩]) := by decide

/-- R107: another identity byte ends BEGIN before any calibration read. -/
theorem test_begin_wrong_identity :
    (nextOf (exec .begin (fresh true (setupOk :: .bytes 0x60#8 0#8 0#8 :: refReads)))).map
      (fun t => (t.control, t.responses, t.trace.map TpEvent.request)) =
    some (.uninitialized, [⟨.errChipId, 0#64⟩], [.tpSetup, .readByte 0xD0#8]) := by decide

/-- Program A, step 2: `T_FINE` = 128422 and 25.08 degrees Celsius. -/
theorem test_readTemperature_e1 :
    (nextOf (step (withInput (.command 0b01#2) (ready [tempBurst])))).map
      (fun t => (t.tFine.map BitVec.toInt, t.responses, t.trace)) =
    some (some 128422, [⟨.ok, 2508#64⟩], [⟨.read24 0xFA#8, some (.data 0x7EED00#24)⟩]) := by decide

/-- V-CMD-1: READ_TEMPERATURE in `Uninitialized`. -/
theorem test_readTemperature_refused :
    (nextOf (exec .readTemperature (fresh true [tempBurst]))).map (fun t => (t.responses, t.trace, t.answers)) =
    some ([⟨.errState, 0#64⟩], [], [tempBurst]) := by decide

/-- Program B, step 2: 25767233, that is 100653.25390625 Pa, temperature burst first. -/
theorem test_readPressure_program_b :
    (nextOf (step (withInput (.command 0b10#2) (ready [tempBurst, pressBurst])))).map
      (fun t => (t.tFine.map BitVec.toInt, t.responses, t.trace.map TpEvent.request)) =
    some (some 128422, [⟨.ok, 25767233#64⟩], [.read24 0xFA#8, .read24 0xF7#8]) := by decide

/-- R96, R112: a pressure burst that fails leaves the new fine temperature. -/
theorem test_readPressure_second_read_fails :
    (nextOf (exec .readPressure (ready [tempBurst, .fail]))).map (fun t => (t.tFine.map BitVec.toInt, t.responses)) =
    some (some 128422, [⟨.errTransport, 0#64⟩]) := by decide

/-- Program C, step 6: RESET writes 0xB6 to 0xE0 and empties the block. -/
theorem test_reset_empties_the_block :
    (nextOf (step (withInput (.command 0b11#2) (ready [setupOk])))).map
      (fun t => (t.control, Coeff.all.map t.coeff, t.responses, t.trace.map TpEvent.request)) =
    some (.uninitialized, Coeff.all.map fun _ => none, [⟨.ok, 0#64⟩], [.writeByte 0xE0#8 0xB6#8]) := by decide

/-- R99 (b): a write that fails resets the block too. -/
theorem test_reset_write_fails :
    (nextOf (exec .reset (ready [.fail]))).map (fun t => (t.control, t.responses)) =
    some (.uninitialized, [⟨.errTransport, 0#64⟩]) := by decide

/-- R131: a hang stops every step but the hardware reset's. -/
theorem test_hang :
    nextOf (step hanging) = none ∧ nextOf (step (withInput (.command 0b11#2) hanging)) = none ∧
    (nextOf (step (withInput .hardwareReset hanging))).map (fun t => (t.outstanding, t.responses)) = some (none, []) := by
  decide

/-- The host's word runs as the first command after reset (log 19): RESET is refused there. -/
theorem test_withFetchWord_runs_first :
    (nextOf (step (State.reset.withFetchWord 8 3))).map (fun t => (t.responses, t.inputs)) =
      some ([⟨.errState, 0#64⟩], []) := by decide

/-! ## Compensation (`95_test_vectors.md` Parts 4 to 6), in integers and on the datapath -/

/-- Part 4: the byte order check. -/
theorem test_sample_byte_order :
    sampleOf ((TpRequest.read24 0xFA#8).assemble 0x12#8 0x34#8 0x56#8) = 74565#20 := by decide

/-- T4 (all three products wrap), T7 and T9 (negative temperatures). -/
theorem test_compT_vectors :
    compT 1048575#20 ⟨0, 32767, 32767⟩ = ⟨-144, -3⟩ ∧ compT 400000#20 ⟨27504, 26435, -1000⟩ = ⟨-64736, -1264⟩ ∧
    compT 0#20 ⟨27504, 26435, -1000⟩ = ⟨-721301, -14088⟩ := by decide

theorem test_compT_datapath_t7 :
    (datapathFine 400000#20 0x6B70#16 0x6743#16 0xFC18#16).toInt = -64736 ∧
    (datapathTCenti (BitVec.ofInt 32 (-64736))).toInt = -1264 := by decide

/-- P19 (degenerate although `P1` is not 0), P21 (negative divisor), P23 (many steps wrap). -/
theorem test_compP_vectors :
    compP 415148#20 1176576 ⟨36477, -32768, 0, 0, 0, 0, 0, 0, 0⟩ = 0 ∧
    compP 415148#20 1176576 ⟨3, -32768, -1, 0, 0, 0, 0, 0, 0⟩ = -8302467481600000 ∧
    compP 1048575#20 (-2147483648) ⟨65535, -32768, -32768, -32768, -32768, -32768, -32768, -32768, -32768⟩ = -34820600 := by
  decide

/-- P3 on the datapath: negative dividend, truncation toward zero. -/
theorem test_compP_datapath_p3 :
    (datapathPQ8 1048575#20 128422#32 0x8E7D#16 0xD643#16 0x0BD0#16 0x0B27#16 0x008C#16 0xFFF9#16 0x3C8C#16 0xC6F8#16
      0x1770#16).toInt = -1697504 := by decide

/-! ## Witnesses: what each obligation with hypotheses assumes, met by concrete data -/

theorem nextOf_eq_some {o : Host.Outcome State Fault Refusal} {t : State} : nextOf o = some t ↔ o = .next t := by
  cases o <;> simp [nextOf]

/-- A command that answers a next state, as the hypothesis of many obligations has it. -/
theorem answers_next {o : Host.Outcome State Fault Refusal} (h : (nextOf o).isSome = true) : ∃ t, o = .next t := by
  cases o with
  | next t => exact ⟨t, rfl⟩
  | fault f => simp [nextOf] at h
  | refused f => simp [nextOf] at h

/-- NonCommandByteIsRejectedByName: the first byte above the command words, and the last one. -/
theorem witness_NonCommandByteIsRejectedByName : commandByteWf 4#8 = false ∧ commandByteWf 255#8 = false := by decide

/-- SampleFormat: two bursts that differ in the discarded nibble, and an answer that is a burst. -/
theorem witness_SampleFormat :
    (0x655AC0#24).toNat / 16 = (0x655ACF#24).toNat / 16 ∧ 0x655AC0#24 ≠ 0x655ACF#24 ∧
    (ready [pressBurst]).nextAnswer.1 = .bytes 0x65#8 0x5A#8 0xC0#8 := by decide

/-- SampleDropsTheLowNibble. -/
theorem witness_SampleDropsTheLowNibble :
    (ready [.bytes 0x65#8 0x5A#8 0xC0#8]).nextAnswer.1 = .bytes 0x65#8 0x5A#8 0xC0#8 ∧
    (ready [.bytes 0x65#8 0x5A#8 0xCF#8]).nextAnswer.1 = .bytes 0x65#8 0x5A#8 0xCF#8 ∧
    (0xC0#8).extractLsb' 4 4 = (0xCF#8).extractLsb' 4 4 := by decide

/-- CalibrationWordReading: an answered word; one unsigned and one signed coefficient. -/
theorem witness_CalibrationWordReading :
    (fresh true refReads).nextAnswer.1 = .bytes 0x70#8 0x6B#8 0x00#8 ∧ (Coeff.P1 = .T1 ∨ Coeff.P1 = .P1) ∧
    Coeff.P9 ≠ .T1 ∧ Coeff.P9 ≠ .P1 := by decide

/-- ArithmeticShiftRoundsDown: the ends of the two ranges. -/
theorem witness_ArithmeticShiftRoundsDown :
    ((-2 ^ 31 : Int) ≤ -2147483648 ∧ (-2147483648 : Int) < 2 ^ 31) ∧
    ((-2 ^ 31 : Int) ≤ 2147483647 ∧ (2147483647 : Int) < 2 ^ 31) ∧
    ((-2 ^ 63 : Int) ≤ -9223372036854775808 ∧ (-9223372036854775808 : Int) < 2 ^ 63) ∧
    ((-2 ^ 63 : Int) ≤ 9223372036854775807 ∧ (9223372036854775807 : Int) < 2 ^ 63) := by norm_num

/-- DivisionTruncatesTowardZero: the most negative dividend with divisor 1, beside the excluded divisor -1. -/
theorem witness_DivisionTruncatesTowardZero :
    (1 : Int) ≠ 0 ∧ (-2 ^ 63 : Int) ≤ -2 ^ 63 ∧ (-2 ^ 63 : Int) < 2 ^ 63 ∧ (-2 ^ 63 : Int) ≤ 1 ∧ (1 : Int) < 2 ^ 63 ∧
    ¬((-2 ^ 63 : Int) = -2 ^ 63 ∧ (1 : Int) = -1) ∧ (-1 : Int) ≠ 0 ∧ (2 : Int) ≠ 0 ∧ (-2 : Int) ≠ 0 := by norm_num

/-- TemperatureWrapsOnlyInProducts: the two differences around the bound, and the end of the range. -/
theorem witness_TemperatureWrapsOnlyInProducts :
    ((-65535 : Int) ≤ 46340 ∧ (46340 : Int) ≤ 65535) ∧ ((-65535 : Int) ≤ 46341 ∧ (46341 : Int) ≤ 65535) ∧
    ((-65535 : Int) ≤ -65535 ∧ (-65535 : Int) ≤ 65535) := by decide

/-- TemperatureIgnoresLowSampleBits: T1 and T18 of the vectors agree from bit 3 up, T18 and T19 from bit 4 up. -/
theorem witness_TemperatureIgnoresLowSampleBits :
    (519888#20).extractLsb' 3 17 = (519895#20).extractLsb' 3 17 ∧
    (519895#20).extractLsb' 4 16 = (519896#20).extractLsb' 4 16 ∧ 519888#20 ≠ 519895#20 := by decide

/-- CentiRoundsToNearest and DivisionOverflowIsUnreachable: both ends of the range of the fine temperature. -/
theorem witness_CentiRoundsToNearest :
    ((-1179648 : Int) ≤ -1179648 ∧ (-1179648 : Int) ≤ 1179646) ∧
    ((-1179648 : Int) ≤ 1179646 ∧ (1179646 : Int) ≤ 1179646) := by decide

theorem witness_DivisionOverflowIsUnreachable :
    ((-1179648 : Int) ≤ -1179648 ∧ (-1179648 : Int) ≤ 1179646) ∧
    ((-1179648 : Int) ≤ 1179646 ∧ (1179646 : Int) ≤ 1179646) := by decide

/-- DegenerateTestIsOnTheShiftedProduct: P20 of the vectors has `pre` just below 0 (−2^32), P19 has `var1` = 0, P5 has
`P1` = 0. -/
theorem witness_DegenerateTestIsOnTheShiftedProduct :
    (-2 ^ 33 ≤ compPPre 1176576 ⟨1, -32768, -1, 0, 0, 0, 0, 0, 0⟩ ∧
      compPPre 1176576 ⟨1, -32768, -1, 0, 0, 0, 0, 0, 0⟩ ≤ -1) ∧
    compPVar1 1176576 ⟨36477, -32768, 0, 0, 0, 0, 0, 0, 0⟩ = 0 ∧
    (PressCoeffs.mk 0 0 0 0 0 0 0 0 0).p1 = 0 := by decide

/-- PressureAtTheReferenceFine: two sets that differ where the pressure does not look. -/
theorem witness_PressureAtTheReferenceFine :
    let k := PressCoeffs.mk 65535 0 0 32767 0 0 1 2 3
    let k' := PressCoeffs.mk 65535 9 8 32767 7 6 1 2 3
    k.p1 = k'.p1 ∧ k.p4 = k'.p4 ∧ k.p7 = k'.p7 ∧ k.p8 = k'.p8 ∧ k.p9 = k'.p9 ∧ k ≠ k' := by decide

/-- HardwareResetFromAnyState: in a hang. -/
theorem witness_HardwareResetFromAnyState :
    (withInput .hardwareReset hanging).inputs = [.hardwareReset] ∧
    (withInput .hardwareReset hanging).outstanding = some .tpSetup := ⟨rfl, rfl⟩

/-- ReadingsAreExactRationals: both ends of the 64-bit range. -/
theorem witness_ReadingsAreExactRationals :
    ((-2 ^ 63 : Int) ≤ -2 ^ 63 ∧ (-2 ^ 63 : Int) < 2 ^ 63) ∧
    ((-2 ^ 63 : Int) ≤ 2 ^ 63 - 1 ∧ (2 ^ 63 - 1 : Int) < 2 ^ 63) := by norm_num

/-- RefusedCommandChangesNothing: all four refusals of V-CMD-1. -/
theorem witness_RefusedCommandChangesNothing :
    (ready []).control = .ready ∧ (fresh true []).control = .uninitialized ∧ Instr.readTemperature ≠ .begin ∧
    Instr.readPressure ≠ .begin ∧ Instr.reset ≠ .begin := by decide

/-- BeginLoadsTheTwelveWords: with the identity check, and without it. -/
theorem witness_BeginLoadsTheTwelveWords :
    (let s := fresh true (setupOk :: idOk :: refReads)
     s.control = .uninitialized ∧ 2 = (if s.params.chipIdCheck then 2 else 1) ∧ s.answerAt 0 = .bytes 0#8 0#8 0#8 ∧
     s.answerAt 1 = .bytes 0x58#8 0#8 0#8 ∧ 0x58#8 = s.params.expectedChipId ∧
     ∀ c : Coeff, s.answerAt (2 + c.index.val) = .bytes (refLo c) (refHi c) (refEx c)) ∧
    (let s := fresh false (setupOk :: refReads)
     s.control = .uninitialized ∧ 1 = (if s.params.chipIdCheck then 2 else 1) ∧ s.params.chipIdCheck ≠ true ∧
     s.answerAt 0 = .bytes 0#8 0#8 0#8 ∧
     ∀ c : Coeff, s.answerAt (1 + c.index.val) = .bytes (refLo c) (refHi c) (refEx c)) :=
  ⟨⟨rfl, rfl, rfl, rfl, rfl, fun c => by cases c <;> rfl⟩, rfl, rfl, by decide, rfl, fun c => by cases c <;> rfl⟩

/-- The premise of BeginOnTheInMemoryFake, from a script of the fake's answers. -/
theorem answerAt_script {as : List Answer} {s : State} (h : s.answers = as) {j : Nat} {a : Answer} (ha : as[j]? = some a) :
    s.answerAt j = a := by
  simp [State.answerAt, h, ha]

/-- BeginOnTheInMemoryFake: the device image DEV, with the identity check and without it. -/
theorem witness_BeginOnTheInMemoryFake (check : Bool) :
    let s := fresh check (fakeAnswers dev (successTrace check .begin))
    s.control = .uninitialized ∧
    (∀ (j : Nat) (q : TpRequest), (successTrace s.params.chipIdCheck .begin)[j]? = some q →
      s.answerAt j = fakeAnswer dev q) ∧
    (s.params.chipIdCheck = true → dev 0xD0#8 = s.params.expectedChipId) :=
  ⟨rfl, fun _ _ hq => answerAt_script (as := fakeAnswers dev (successTrace check .begin)) rfl
    (List.getElem?_map.trans (congrArg (Option.map (fakeAnswer dev)) hq)), fun _ => by cases check <;> decide⟩

/-- BeginStopsBeforeTheCalibrationReads: each of its three cases. -/
theorem witness_BeginStopsBeforeTheCalibrationReads :
    (fresh true [.fail]).control = .uninitialized ∧ (fresh true [.fail]).answerAt 0 = .fail ∧
    (fresh true [setupOk, .fail]).params.chipIdCheck = true ∧
    (fresh true [setupOk, .fail]).answerAt 0 = .bytes 0#8 0#8 0#8 ∧ (fresh true [setupOk, .fail]).answerAt 1 = .fail ∧
    (fresh true [setupOk, .bytes 0x60#8 0#8 0#8]).answerAt 0 = .bytes 0#8 0#8 0#8 ∧
    (fresh true [setupOk, .bytes 0x60#8 0#8 0#8]).answerAt 1 = .bytes 0x60#8 0#8 0#8 ∧
    (0x60#8 : Byte) ≠ (fresh true []).params.expectedChipId := by decide

/-- CalibrationLoadStopsAtTheFirstFailure: the first read, the seventh (V-CAL-3) and the last. -/
theorem witness_CalibrationLoadStopsAtTheFirstFailure :
    ∀ n ∈ [0, 6, 11], n < 12 ∧
      (let s := fresh true (setupOk :: idOk :: (refReads.take n ++ [.fail]))
       s.control = .uninitialized ∧ 2 = (if s.params.chipIdCheck then 2 else 1) ∧ s.answerAt 0 = .bytes 0#8 0#8 0#8 ∧
       s.answerAt 1 = .bytes 0x58#8 0#8 0#8 ∧ 0x58#8 = s.params.expectedChipId ∧
       (∀ c ∈ Coeff.all, c.index.val < n → s.answerAt (2 + c.index.val) = .bytes (refLo c) (refHi c) (refEx c)) ∧
       s.answerAt (2 + n) = .fail) := by decide

/-- Its last clause: a CAL_LOAD that fails at its second read. -/
theorem witness_calibration_load_fails :
    ∃ t, calLoad (fresh true (refReads.take 1 ++ [.fail])) = .raised .transport t := ⟨_, rfl⟩

/-- BeginIsAllOrNothing. -/
theorem witness_BeginIsAllOrNothing :
    (fresh true [.never]).control = .uninitialized ∧ (fresh true [.never]).outstanding = none := ⟨rfl, rfl⟩

/-- REF is in the store of `ready`. -/
theorem ready_coeff (as : List Answer) (c : Coeff) : (ready as).coeff c = some (refWord c) := by cases c <;> rfl

/-- ReadTemperatureResult. -/
theorem witness_ReadTemperatureResult :
    (ready [tempBurst]).control = .ready ∧ (∀ c, (ready [tempBurst]).coeff c = some (refWord c)) ∧
    (ready [tempBurst]).nextAnswer.1 = .bytes 0x7E#8 0xED#8 0x00#8 := ⟨rfl, ready_coeff _, rfl⟩

/-- ReadTemperatureWithoutASample and ReadPressureWithoutATemperature: both cases. -/
theorem witness_ReadTemperatureWithoutASample :
    (ready [.fail]).control = .ready ∧ (ready [.fail]).nextAnswer.1 = .fail ∧
    (ready [.never]).control = .ready ∧ (ready [.never]).nextAnswer.1 = .never := ⟨rfl, rfl, rfl, rfl⟩

theorem witness_ReadPressureWithoutATemperature :
    (ready [.fail]).control = .ready ∧ (ready [.fail]).nextAnswer.1 = .fail ∧
    (ready [.never]).control = .ready ∧ (ready [.never]).nextAnswer.1 = .never := ⟨rfl, rfl, rfl, rfl⟩

/-- ReadPressureResult. -/
theorem witness_ReadPressureResult :
    (ready [tempBurst, pressBurst]).control = .ready ∧
    (∀ c, (ready [tempBurst, pressBurst]).coeff c = some (refWord c)) ∧
    (ready [tempBurst, pressBurst]).answerAt 0 = .bytes 0x7E#8 0xED#8 0x00#8 ∧
    (ready [tempBurst, pressBurst]).answerAt 1 = .bytes 0x65#8 0x5A#8 0xC0#8 := ⟨rfl, ready_coeff _, rfl, rfl⟩

/-- ReadPressureWithoutAPressureSample: both cases. -/
theorem witness_ReadPressureWithoutAPressureSample :
    (ready [tempBurst, .fail]).control = .ready ∧ (∀ c, (ready [tempBurst, .fail]).coeff c = some (refWord c)) ∧
    (ready [tempBurst, .fail]).answerAt 0 = .bytes 0x7E#8 0xED#8 0x00#8 ∧ (ready [tempBurst, .fail]).answerAt 1 = .fail ∧
    (ready [tempBurst, .never]).answerAt 1 = .never := ⟨rfl, ready_coeff _, rfl, rfl, rfl⟩

/-- The state of `ready` with the store of Program G: `P1` = 0. -/
def degenerate : State :=
  { ready [tempBurst, pressBurst] with cal := (ready []).cal.write .P1 0#16 }

/-- DegenerateReadingIsOkWithZero. -/
theorem witness_DegenerateReadingIsOkWithZero :
    degenerate.control = .ready ∧
    (∀ c, degenerate.coeff c = some (if c = .P1 then 0#16 else refWord c)) ∧
    degenerate.answerAt 0 = .bytes 0x7E#8 0xED#8 0x00#8 ∧ degenerate.answerAt 1 = .bytes 0x65#8 0x5A#8 0xC0#8 ∧
    compPVar1 128422 (.ofWords 0#16 (refWord .P2) (refWord .P3) (refWord .P4) (refWord .P5) (refWord .P6) (refWord .P7)
      (refWord .P8) (refWord .P9)) = 0 ∧
    (compT 519888#20 (.ofWords (refWord .T1) (refWord .T2) (refWord .T3))).fine = 128422 :=
  ⟨rfl, fun c => by cases c <;> rfl, rfl, rfl, by decide, by decide⟩

/-- PressureIgnoresTheOldFine and OkPressurePairsItsOwnSamples: a READ_PRESSURE that answers `OK`. -/
theorem witness_PressureIgnoresTheOldFine : ∃ t, exec .readPressure (ready [tempBurst, pressBurst]) = .next t :=
  answers_next (by decide)

theorem witness_OkPressurePairsItsOwnSamples :
    ∃ t, (ready [tempBurst, pressBurst]).control = .ready ∧ exec .readPressure (ready [tempBurst, pressBurst]) = .next t ∧
      t.responses = (ready [tempBurst, pressBurst]).responses ++ [⟨.ok, 25767233#64⟩] := by
  obtain ⟨t, ht⟩ := answers_next (o := exec .readPressure (ready [tempBurst, pressBurst])) (by decide)
  refine ⟨t, rfl, ht, ?_⟩
  have : (nextOf (exec .readPressure (ready [tempBurst, pressBurst]))).map State.responses =
      some [⟨.ok, 25767233#64⟩] := by decide
  rw [nextOf_eq_some.2 ht] at this
  exact Option.some.inj this

/-- ResetResult: its three cases. -/
theorem witness_ResetResult :
    (ready [setupOk]).control = .ready ∧ (ready [setupOk]).nextAnswer.1 = .bytes 0#8 0#8 0#8 ∧
    (ready [.fail]).nextAnswer.1 = .fail ∧ (ready [.never]).nextAnswer.1 = .never := ⟨rfl, rfl, rfl, rfl⟩

/-- ReadsAreRefusedUntilBegin: no command, and all three that are refused. -/
theorem witness_ReadsAreRefusedUntilBegin :
    let cmds : List Instr := [.readTemperature, .readPressure, .reset]
    let s : State := { fresh true [] with inputs := cmds.map (fun i => .command (encode i)) ++ [.hardwareReset] }
    (∀ i ∈ cmds, i ≠ .begin) ∧ s.control = .uninitialized ∧ s.outstanding = none ∧
    s.inputs = cmds.map (fun i => .command (encode i)) ++ [.hardwareReset] ∧
    (∀ i ∈ ([] : List Instr), i ≠ .begin) := by decide

/-- EveryCommandFrame, TraceFollowsTheTable, AFailedTransactionIsNeverRetried, OnlyTheSoftResetIsWritten,
UnusedDeviceRegistersAreNeverAccessed, TransactionsAreAnsweredInOrder, ReadingsWriteOnlyTheFineTemperature: every command
answers a next state. -/
theorem witness_every_command_answers :
    (∃ t, exec .begin (fresh true (setupOk :: idOk :: refReads)) = .next t) ∧
    (∃ t, exec .readTemperature (ready [tempBurst]) = .next t) ∧
    (∃ t, exec .readPressure (ready [tempBurst, pressBurst]) = .next t) ∧
    ∃ t, exec .reset (ready [setupOk]) = .next t :=
  ⟨answers_next (by decide), answers_next (by decide), answers_next (by decide), answers_next (by decide)⟩

/-- OnlyBeginAndResetChangeTheControlState: a BEGIN that goes to `Ready`, and a RESET that leaves it. -/
theorem witness_OnlyBeginAndResetChangeTheControlState :
    (fresh true (setupOk :: idOk :: refReads)).control = .uninitialized ∧
    (nextOf (exec .begin (fresh true (setupOk :: idOk :: refReads)))).map State.control = some .ready ∧
    (ready [.fail]).control = .ready ∧
    (nextOf (exec .reset (ready [.fail]))).map State.control = some .uninitialized ∧
    (nextOf (exec .readTemperature (ready [.fail]))).map State.control = some (ready [.fail]).control := by decide

/-- ExactlyOneResponsePerCommand: a command that answers, one that hangs, and an idle core. -/
theorem witness_ExactlyOneResponsePerCommand :
    (ready [tempBurst]).outstanding = none ∧ (nextOf (exec .readTemperature (ready [tempBurst]))).isSome = true ∧
    (ready [.never]).outstanding = none ∧
    (nextOf (exec .readTemperature (ready [.never]))).map State.outstanding = some (some (.read24 0xFA#8)) ∧
    (ready []).inputs = [] := by decide

/-- TraceFollowsTheTable: an `OK` answer, and a refusal. -/
theorem witness_TraceFollowsTheTable :
    (nextOf (exec .readTemperature (ready [tempBurst]))).map State.responses = some ([] ++ [⟨.ok, 2508#64⟩]) ∧
    (nextOf (exec .begin (ready [tempBurst]))).map State.responses = some ([] ++ [⟨.errState, 0#64⟩]) := by decide

/-- AFailedTransactionIsNeverRetried: a transaction that fails after one that succeeded. -/
theorem witness_AFailedTransactionIsNeverRetried :
    (nextOf (exec .readPressure (ready [tempBurst, .fail]))).map (fun t => t.trace.map TpEvent.reply) =
      some [some (.data 0x7EED00#24), some .failure] := by decide

/-- OnlyTheSoftResetIsWritten: another address, and a RESET in `Ready`. -/
theorem witness_OnlyTheSoftResetIsWritten :
    (0xE1#8 : RegAddr) ≠ 0xE0#8 ∧ (ready [setupOk]).control = .ready ∧
    (nextOf (exec .reset (ready [setupOk]))).map (fun t => t.trace.map TpEvent.request) =
      some [.writeByte 0xE0#8 0xB6#8] := by decide

/-- `ready` is good, with a fine temperature or without one. -/
theorem ready_good : (ready [tempBurst]).Good where
  lifecycle := ⟨fun _ c => by rw [ready_coeff]; rfl, fun h => nomatch h⟩
  fine_in_range := fun _ h => nomatch h
  fine_is_fresh := fun _ h => nomatch h
  only_issued := fun _ h => nomatch h
  outstanding_is_last := fun _ h => nomatch h
  errors_carry_no_value := fun _ h => nomatch h

/-- EveryStepKeepsGood, EveryStepKeepsTheFineFresh, NoStepStopsWithoutAHang: a good state and a step from it that reads a
temperature. -/
theorem witness_EveryStepKeepsGood :
    ∃ s t : State, s.Good ∧ s.FineIsFresh ∧ s.Lifecycle ∧ s.outstanding = none ∧ step s = .next t ∧
      t.tFine = some 128422#32 := by
  obtain ⟨t, ht⟩ := answers_next (o := step (withInput (.command 0b01#2) (ready [tempBurst]))) (by decide)
  have h : (nextOf (step (withInput (.command 0b01#2) (ready [tempBurst])))).map State.tFine = some (some 128422#32) := by
    decide
  rw [nextOf_eq_some.2 ht] at h
  have g := ready_good
  exact ⟨withInput (.command 0b01#2) (ready [tempBurst]), t, ⟨⟨g.1.1, g.1.2⟩, g.2, g.3, g.4, g.5, g.6⟩, g.3, ⟨g.1.1, g.1.2⟩, rfl, ht, Option.some.inj h⟩

/-- A state that already holds a fine temperature is fresh too: after Program A. -/
theorem witness_EveryStepKeepsTheFineFresh :
    ({ ready [] with tFine := some 128422#32, trace := [⟨.read24 0xFA#8, some (.data 0x7EED00#24)⟩] } : State).FineIsFresh := by
  intro f hf
  refine ⟨519888#20, refWord .T1, refWord .T2, refWord .T3, by decide, rfl, rfl, rfl, ?_⟩
  obtain rfl := Option.some.inj hf
  decide

/-- AHangLastsUntilTheHardwareReset: a command that hangs, the three inputs after it, and a command whose transactions
all complete. -/
theorem witness_AHangLastsUntilTheHardwareReset :
    (nextOf (exec .begin (fresh true [.never]))).map State.outstanding = some (some .tpSetup) ∧
    hanging.outstanding = some .tpSetup ∧ hanging.inputs = [] ∧
    (withInput (.command 0b00#2) hanging).inputs = [.command 0b00#2] ∧
    (withInput .hardwareReset hanging).inputs = [.hardwareReset] ∧
    (∀ j, j < 14 → (fresh true (setupOk :: idOk :: refReads)).answerAt j ≠ .never) := by decide

/-- The last clause's other premises, for the same state. -/
theorem witness_completing_command_premises :
    (fresh true (setupOk :: idOk :: refReads)).Lifecycle ∧ (fresh true (setupOk :: idOk :: refReads)).outstanding = none :=
  ⟨⟨(fun h => nomatch h), fun _ => ⟨rfl, rfl⟩⟩, rfl⟩

/-- AStepRunsTheDecodedCommand: a command word next, on a free port. -/
theorem witness_AStepRunsTheDecodedCommand :
    (withInput (.command 0b10#2) (ready [])).inputs = .command 0b10#2 :: [] ∧
    (withInput (.command 0b10#2) (ready [])).outstanding = none := ⟨rfl, rfl⟩

end Sys2Proof.Tests
end

section
/-!
Proofs of the family `30_encoding.md`: how a sample (R54) and a calibration word (R53) are read from bytes.
-/

namespace Sys2Proof.Machine

/-! ## The sample (R54) -/

/-- The low four bits of a burst are discarded, and nothing above them is lost (R54). -/
theorem sampleOf_toNat (w : Burst) : (sampleOf w).toNat = w.toNat / 16 := by
  have hw := w.isLt
  rw [sampleOf, BitVec.extractLsb'_toNat, Nat.shiftRight_eq_div_pow]
  omega

/-- Bursts that agree above the low four bits give one sample. -/
theorem sampleOf_congr {w w' : Burst} (h : w.toNat / 16 = w'.toNat / 16) : sampleOf w = sampleOf w' := by
  apply BitVec.eq_of_toNat_eq
  rw [sampleOf_toNat, sampleOf_toNat, h]

/-- The number a `read24` burst gives as a sample, from its bytes (R32, R54). -/
theorem sampleOf_read24_toNat (reg : RegAddr) (b0 b1 b2 : Byte) :
    (sampleOf ((TpRequest.read24 reg).assemble b0 b1 b2)).toNat =
      4096 * b0.toNat + 16 * b1.toNat + b2.toNat / 16 := by
  have h0 := b0.isLt
  have h1 := b1.isLt
  have h2 := b2.isLt
  rw [sampleOf_toNat, read24_assemble, BitVec.toNat_ofNat]
  omega

/-- Settles O8: bits 23:4 of the burst are its quotient by 16, which the burst's bytes give by place value. -/
theorem sampleFormat : Obligations.SampleFormat := by
  refine ⟨fun w => ⟨sampleOf_toNat w, ?_, rfl⟩, fun _ _ => sampleOf_congr, fun s reg b0 b1 b2 h => ?_⟩
  · exact Nat.le_pred_of_lt (sampleOf w).isLt
  · exact ⟨_, _, sample_bytes h, sampleOf_read24_toNat reg b0 b1 b2⟩

/-! ## The calibration word (R53) -/

/-- A word read that is answered with bytes gives the second byte above the first (R31, R53). -/
theorem readWord16LE_bytes {reg : RegAddr} {s : State} {b0 b1 b2 : Byte} (h : s.nextAnswer.1 = .bytes b0 b1 b2) :
    readWord16LE reg s = .done (b1 ++ b0) (s.nextAnswer.2.observe (.readWord16LE reg)
      (some (.data ((TpRequest.readWord16LE reg).assemble b0 b1 b2)))) := by
  rw [readWord16LE, transact_bytes h, Flow.map, readWord16LE_assemble]

/-- `T1` and `P1` are the two unsigned coefficients (R14). -/
theorem Coeff.signed_eq_false_iff (c : Coeff) : c.signed = false ↔ c = .T1 ∨ c = .P1 := by
  cases c <;> decide

/-- An unsigned coefficient is its pattern's number (R53). -/
theorem Coeff.value_unsigned {c : Coeff} (h : c.signed = false) (w : CalWord) : c.value w = w.toNat := by
  simp [Coeff.value, h]

/-- A signed coefficient is its pattern's two's complement number (R53). -/
theorem Coeff.value_signed {c : Coeff} (h : c.signed = true) (w : CalWord) : c.value w = w.toInt := by
  simp [Coeff.value, h]

theorem Coeff.value_unsigned_range {c : Coeff} (h : c.signed = false) (w : CalWord) :
    0 ≤ c.value w ∧ c.value w ≤ 65535 := by
  have hw := w.isLt
  rw [Coeff.value_unsigned h]
  omega

theorem Coeff.value_signed_range {c : Coeff} (h : c.signed = true) (w : CalWord) :
    -32768 ≤ c.value w ∧ c.value w ≤ 32767 := by
  have hge := w.le_toInt
  have hlt := w.toInt_lt
  rw [Coeff.value_signed h]
  omega

/-- Settles O10: the word read is the high byte above the low one, a store write is read back as written, and the
coefficient's type decides how the pattern is read. -/
theorem calibrationWordReading : Obligations.CalibrationWordReading := by
  refine ⟨fun s reg b0 b1 b2 h => ⟨_, _, readWord16LE_bytes h, rfl⟩, fun cal c w => ?stored,
    fun c w => ⟨?unsigned, ?signed⟩, by decide⟩
  case stored => rw [CalStore.write_index, if_pos rfl]
  case unsigned =>
    intro hc
    have hu := c.signed_eq_false_iff.2 hc
    exact ⟨Coeff.value_unsigned hu w, Coeff.value_unsigned_range hu w⟩
  case signed =>
    intro hT hP
    have hs : c.signed = true := by
      rw [← Bool.not_eq_false, Coeff.signed_eq_false_iff]
      exact not_or.2 ⟨hT, hP⟩
    exact ⟨Coeff.value_signed hs w, Coeff.value_signed_range hs w⟩

end Sys2Proof.Machine
end

section
/-!
Proof of the family `41_raw_sample.md`: the low nibble of a burst's third byte never reaches the sample (R67).
-/

namespace Sys2Proof.Machine

/-- The high nibble of a byte as a number. -/
theorem highNibble_toNat (b : Byte) : (b.extractLsb' 4 4).toNat = b.toNat / 16 := by
  have hb := b.isLt
  rw [BitVec.extractLsb'_toNat, Nat.shiftRight_eq_div_pow]
  omega

/-- Bursts whose third bytes agree in the high nibble give one sample (R67). -/
theorem sampleOf_read24_congr (reg : RegAddr) (b0 b1 : Byte) {b2 b2' : Byte}
    (h : b2.extractLsb' 4 4 = b2'.extractLsb' 4 4) :
    sampleOf ((TpRequest.read24 reg).assemble b0 b1 b2) = sampleOf ((TpRequest.read24 reg).assemble b0 b1 b2') := by
  have hdiv : b2.toNat / 16 = b2'.toNat / 16 := by rw [← highNibble_toNat, h, highNibble_toNat]
  apply BitVec.eq_of_toNat_eq
  rw [sampleOf_read24_toNat, sampleOf_read24_toNat, hdiv]

/-- Settles O9: whatever the bytes, both bursts are accepted, and the sample takes the third byte's high nibble alone. -/
theorem sampleDropsTheLowNibble : Obligations.SampleDropsTheLowNibble := by
  refine ⟨fun s s' reg b0 b1 b2 b2' hs hs' hnib => ?_, by decide⟩
  have hsample' := sample_bytes (reg := reg) hs'
  rw [← sampleOf_read24_congr reg b0 b1 hnib] at hsample'
  exact ⟨_, _, _, sample_bytes hs, hsample'⟩

end Sys2Proof.Machine
end

section
/-!
Proof of the family `60_exceptions.md`: the degenerate reading is `(OK, 0)`, and so is another one (R110, R90).
-/

namespace Sys2Proof.Machine

/-! ## READ_PRESSURE when both bursts arrive (R96) -/

/-- The sample in the three bytes of a burst, as a number (R54; `sampleOf_bytes`). -/
abbrev byteSample (b0 b1 b2 : Byte) : RawSample :=
  BitVec.ofNat 20 (4096 * b0.toNat + 16 * b1.toNat + b2.toNat / 16)

/-- The coefficients of COMP_T in a store that holds `w` (R62). -/
abbrev TempCoeffs.ofStore (w : Coeff → CalWord) : TempCoeffs := .ofWords (w .T1) (w .T2) (w .T3)

/-- The coefficients of COMP_P in a store that holds `w` (R62). -/
abbrev PressCoeffs.ofStore (w : Coeff → CalWord) : PressCoeffs :=
  .ofWords (w .P1) (w .P2) (w .P3) (w .P4) (w .P5) (w .P6) (w .P7) (w .P8) (w .P9)

theorem State.tempCoeffs_ofStore {s : State} {w : Coeff → CalWord} (hw : ∀ c, s.coeff c = some (w c)) :
    s.tempCoeffs = .ok (.ofStore w) :=
  State.tempCoeffs_of (hw _) (hw _) (hw _)

theorem State.pressCoeffs_ofStore {s : State} {w : Coeff → CalWord} (hw : ∀ c, s.coeff c = some (w c)) :
    s.pressCoeffs = .ok (.ofStore w) :=
  State.pressCoeffs_of (hw _) (hw _) (hw _) (hw _) (hw _) (hw _) (hw _) (hw _) (hw _)

/-- A temperature phase whose burst arrives stores the fine temperature, takes one answer, and leaves the store and the
responses (R95). -/
theorem tempPhase_answered {s : State} {k : TempCoeffs} {b0 b1 b2 : Byte} (hk : s.tempCoeffs = .ok k)
    (h : s.answerAt 0 = .bytes b0 b1 b2) :
    ∃ t, tempPhase s = .ok (.done (compT (byteSample b0 b1 b2) k).tCenti t) ∧
      t.tFine = some (BitVec.ofInt 32 (compT (byteSample b0 b1 b2) k).fine) ∧ t.cal = s.cal ∧
      t.responses = s.responses ∧ ∀ j, t.answerAt j = s.answerAt (1 + j) :=
  ⟨_, tempPhase_bytes hk (s.nextAnswer_eq_answerAt.trans h), rfl, by simp, by simp,
    State.answerAt_after (by simp) (by simp)⟩

/-- A pressure phase whose burst arrives gives COMP_P of the sample with the content of `T_FINE`, and leaves `T_FINE` and
the responses (R96). -/
theorem pressPhase_answered {s : State} {k : PressCoeffs} {f : Fine} {b0 b1 b2 : Byte} (hk : s.pressCoeffs = .ok k)
    (hf : s.tFine = some f) (h : s.answerAt 0 = .bytes b0 b1 b2) :
    ∃ t, pressPhase s = .ok (.done (compP (byteSample b0 b1 b2) f.toInt k) t) ∧ t.tFine = some f ∧
      t.responses = s.responses :=
  ⟨_, pressPhase_bytes hk hf (s.nextAnswer_eq_answerAt.trans h), by simp [hf], by simp⟩

/-- A READ_PRESSURE whose two bursts arrive answers `OK` with COMP_P of the second sample and the fine temperature of the
first, which `T_FINE` then holds (R96). -/
theorem exec_readPressure_answered {s : State} {w : Coeff → CalWord} {b0 b1 b2 c0 c1 c2 : Byte}
    (hc : s.control = .ready) (hw : ∀ c, s.coeff c = some (w c)) (h0 : s.answerAt 0 = .bytes b0 b1 b2)
    (h1 : s.answerAt 1 = .bytes c0 c1 c2) :
    ∃ t, exec .readPressure s = .next t ∧
      t.responses = s.responses ++ [⟨.ok, BitVec.ofInt 64 (compP (byteSample c0 c1 c2)
        (compT (byteSample b0 b1 b2) (.ofStore w)).fine (.ofStore w))⟩] ∧
      t.tFine = some (BitVec.ofInt 32 (compT (byteSample b0 b1 b2) (.ofStore w)).fine) := by
  obtain ⟨u, hu, hfine, hcal, hresp, hans⟩ := tempPhase_answered (State.tempCoeffs_ofStore hw) h0
  have hk : u.pressCoeffs = .ok (.ofStore w) := by
    rw [State.pressCoeffs_congr hcal, State.pressCoeffs_ofStore hw]
  obtain ⟨t, ht, htfine, htresp⟩ := pressPhase_answered hk hfine ((hans 0).trans h1)
  rw [toInt_ofInt_fine] at ht
  have hsteps : readPressureSteps s = pressPhase u := by rw [readPressureSteps, hu]
  rw [exec_readPressure hc, hsteps, ht]
  exact ⟨t.respond .ok _, rfl, by rw [State.respond_responses, htresp, hresp], htfine⟩

/-- COMP_P at a divisor 0 is 0 (R82). -/
theorem compP_degenerate {fine : Int} {k : PressCoeffs} (h : compPVar1 fine k = 0) (adcP : RawSample) :
    compP adcP fine k = 0 := by
  rw [compP, dif_pos h]

/-! ## A reading of 0 that is not degenerate (R90) -/

/-- Every register holds the word committed to it when the twelve are committed (R59, R64). -/
theorem CalStore.commit_all_index (cal : CalStore) (w : Coeff → CalWord) (c : Coeff) :
    (cal.commit (Coeff.all.map fun d => (d, w d)))[c.index] = some (w c) :=
  CalStore.commit_mem _ cal c (w c) Coeff.nodup_all (List.mem_map.2 ⟨c, Coeff.mem_all c, rfl⟩)

/-- Words for which `var1` is 16384 and `var2` is 2^35 at every fine temperature: `P1` = `P4` = 1, all others 0. -/
def balancedWord (c : Coeff) : CalWord :=
  match c with
  | .P1 => 1#16
  | .P4 => 1#16
  | _ => 0#16

/-- `Ready` with those words, and bursts of the samples 0 and 1048560: `p0` is then 16, so `p0 << 31` equals `var2` and
the dividend is 0. -/
def balanced : State :=
  { State.reset with
    control := .ready
    cal := CalStore.none.commit (Coeff.all.map fun c => (c, balancedWord c))
    answers := [.bytes 0x00#8 0x00#8 0x00#8, .bytes 0xFF#8 0xFF#8 0x00#8] }

theorem balanced_coeff (c : Coeff) : balanced.coeff c = some (balancedWord c) :=
  CalStore.commit_all_index _ _ c

theorem balanced_fine : (compT (byteSample 0x00#8 0x00#8 0x00#8) (.ofStore balancedWord)).fine = 0 := by decide

theorem balanced_var1 : compPVar1 0 (.ofStore balancedWord) = 16384 := by decide

theorem balanced_pressure : compP (byteSample 0xFF#8 0xFF#8 0x00#8) 0 (.ofStore balancedWord) = 0 := by decide

/-- READ_PRESSURE from `balanced` answers `(OK, 0)`, at the fine temperature 0. -/
theorem exec_readPressure_balanced :
    ∃ t, exec .readPressure balanced = .next t ∧ t.responses = balanced.responses ++ [⟨.ok, 0#64⟩] ∧
      t.tFine = some 0#32 := by
  obtain ⟨t, ht, hresp, hfine⟩ := exec_readPressure_answered (s := balanced) rfl balanced_coeff rfl rfl
  rw [balanced_fine] at hresp hfine
  rw [balanced_pressure] at hresp
  exact ⟨t, ht, hresp, hfine⟩

/-- Settles O41: at a divisor 0 COMP_P is 0, and the temperature phase has stored its fine temperature; READ_PRESSURE from
`balanced` answers 0 too, with the divisor 16384. -/
theorem degenerateReadingIsOkWithZero : Obligations.DegenerateReadingIsOkWithZero := by
  refine ⟨?degenerate, ?ambiguous⟩
  case degenerate =>
    intro s w b0 b1 b2 c0 c1 c2 hc hw h0 h1 fine hvar1
    obtain ⟨t, ht, hresp, hfine⟩ := exec_readPressure_answered hc hw h0 h1
    rw [compP_degenerate hvar1] at hresp
    exact ⟨t, ht, hresp, hfine⟩
  case ambiguous =>
    obtain ⟨t, ht, hresp, hfine⟩ := exec_readPressure_balanced
    have hvar1 : compPVar1 (0#32).toInt (.ofStore balancedWord) ≠ 0 := by
      rw [BitVec.toInt_zero, balanced_var1]
      decide
    exact ⟨balanced, t, balancedWord, 0#32, rfl, balanced_coeff, ht, hresp, hfine, by decide, by decide, hvar1⟩

end Sys2Proof.Machine
end

section
/-!
Proofs of the family `30_encoding.md`: commands, programs and records are read back from their encodings (R47 to R57).
-/

namespace Sys2Proof

/-! ## Command words and programs (R47, R57) -/

@[simp] theorem decode_encode (i : Instr) : decode (encode i) = i := by
  cases i <;> rfl

@[simp] theorem encode_decode (w : CommandWord) : encode (decode w) = w := by
  revert w
  decide

/-- A number below 4 frames the command word of that number (log 9). -/
theorem commandWordOf_of_lt {n : Nat} (h : n < 4) : commandWordOf n = some (BitVec.ofNat 2 n) := if_pos h

theorem commandWordOf_of_not_lt {n : Nat} (h : ¬ n < 4) : commandWordOf n = none := if_neg h

@[simp] theorem commandWordOf_toNat (w : CommandWord) : commandWordOf w.toNat = some w := by
  rw [commandWordOf_of_lt w.isLt, BitVec.ofNat_toNat, BitVec.setWidth_eq]

theorem decodeByte_of_word {b : Byte} {w : CommandWord} (h : commandWordOf b.toNat = some w) :
    decodeByte b = .ok (decode w) := by
  rw [decodeByte, h]

theorem decodeByte_of_none {b : Byte} (h : commandWordOf b.toNat = none) :
    decodeByte b = .error (.notACommandWord b) := by
  rw [decodeByte, h]

theorem encodeByte_toNat (i : Instr) : (encodeByte i).toNat = (encode i).toNat := by
  cases i <;> rfl

@[simp] theorem decodeByte_encodeByte (i : Instr) : decodeByte (encodeByte i) = .ok i := by
  rw [decodeByte_of_word (w := encode i) (by rw [encodeByte_toNat, commandWordOf_toNat]), decode_encode]

/-- A byte frames a command exactly when it is that command's encoding. -/
theorem decodeByte_eq_ok_iff {b : Byte} {i : Instr} : decodeByte b = .ok i ↔ b = encodeByte i := by
  refine ⟨fun h => ?_, fun h => h ▸ decodeByte_encodeByte i⟩
  by_cases hb : b.toNat < 4
  · rw [decodeByte_of_word (commandWordOf_of_lt hb)] at h
    cases h
    apply BitVec.eq_of_toNat_eq
    rw [encodeByte_toNat, encode_decode, BitVec.toNat_ofNat, Nat.mod_eq_of_lt hb]
  · rw [decodeByte_of_none (commandWordOf_of_not_lt hb)] at h
    cases h

/-- The program decoder takes one command and goes on. -/
theorem decodeProgram_cons_ok {b : Byte} {i : Instr} (h : decodeByte b = .ok i) (bs : List Byte) :
    decodeProgram (b :: bs) = (decodeProgram bs).map (i :: ·) := by
  simp only [decodeProgram, h]
  cases decodeProgram bs <;> rfl

theorem decodeProgram_cons_error {b : Byte} {e : DecodeError} (h : decodeByte b = .error e) (bs : List Byte) :
    decodeProgram (b :: bs) = .error e := by
  simp only [decodeProgram, h]

/-- An encoded program in front is read back, and the decoder goes on behind it. -/
theorem decodeProgram_encodeProgram_append (p : List Instr) (bs : List Byte) :
    decodeProgram (encodeProgram p ++ bs) = (decodeProgram bs).map (p ++ ·) := by
  induction p with
  | nil => cases h : decodeProgram bs <;> simp [encodeProgram, h, Except.map]
  | cons i p ih =>
    have hcons : encodeProgram (i :: p) ++ bs = encodeByte i :: (encodeProgram p ++ bs) := rfl
    rw [hcons, decodeProgram_cons_ok (decodeByte_encodeByte i), ih]
    cases decodeProgram bs <;> rfl

theorem decodeProgram_encodeProgram (p : List Instr) : decodeProgram (encodeProgram p) = .ok p := by
  simpa [decodeProgram, Except.map] using decodeProgram_encodeProgram_append p []

/-- Whatever decodes to a program is its encoding, byte by byte. -/
theorem eq_encodeProgram_of_decodeProgram {bs : List Byte} {p : List Instr} (h : decodeProgram bs = .ok p) :
    bs = encodeProgram p := by
  induction bs generalizing p with
  | nil => cases h; rfl
  | cons b bs ih =>
    cases hb : decodeByte b with
    | error e => rw [decodeProgram_cons_error hb] at h; cases h
    | ok i =>
      rw [decodeProgram_cons_ok hb] at h
      cases hbs : decodeProgram bs with
      | error e => rw [hbs] at h; cases h
      | ok q =>
        rw [hbs] at h
        cases h
        rw [decodeByte_eq_ok_iff.1 hb, ih hbs]
        rfl

/-- Settles O3, by induction on the bytes one way and on the program the other. -/
theorem programBytesRoundTrip : Obligations.ProgramBytesRoundTrip :=
  fun _ _ => ⟨eq_encodeProgram_of_decodeProgram, fun h => h ▸ decodeProgram_encodeProgram _⟩

theorem decodeByte_of_not_wf {b : Byte} (h : commandByteWf b = false) : decodeByte b = .error (.notACommandWord b) :=
  decodeByte_of_none (commandWordOf_of_not_lt (of_decide_eq_false h))

/-- Settles O4: behind the encoded program the decoder meets the byte, which frames no command word. -/
theorem nonCommandByteIsRejectedByName : Obligations.NonCommandByteIsRejectedByName := by
  intro p b rest hb
  rw [decodeProgram_encodeProgram_append, decodeProgram_cons_error (decodeByte_of_not_wf hb)]
  rfl

/-- Settles O1: the table of R47, read off the decoder and the encoder. -/
theorem commandWordsDecodeAsTabled : Obligations.CommandWordsDecodeAsTabled := by
  unfold Obligations.CommandWordsDecodeAsTabled
  decide

/-- The written forms are read in the order of the codes, so a word read is one of the command's two forms. -/
theorem Instr.written_of_ofWritten {t : String} {i : Instr} (h : Instr.ofWritten t = some i) :
    t = i.mnemonic ∨ t = i.sourceName := by
  simpa using List.find?_some h

theorem Instr.ofWritten_forms (i : Instr) :
    Instr.ofWritten i.mnemonic = some i ∧ Instr.ofWritten i.sourceName = some i := by
  cases i <;> decide

/-- Settles O2: both pairs are inverse, and the eight spellings are the table's. -/
theorem commandWordsAndCommandsCorrespond : Obligations.CommandWordsAndCommandsCorrespond :=
  ⟨decode_encode, encode_decode, Instr.ofWritten_forms, rfl, rfl, rfl, rfl, rfl, rfl, rfl, rfl,
    fun _ _ => Instr.written_of_ofWritten⟩

end Sys2Proof

namespace Sys2Proof.Machine

/-! ## The records (R49 to R52) -/

@[simp] theorem Status.ofCode_code (st : Status) : Status.ofCode st.code = st := by
  cases st <;> rfl

@[simp] theorem Status.code_ofCode (c : BitVec 2) : (Status.ofCode c).code = c := by
  revert c
  decide

theorem Response.encode_status (r : Response) : r.encode.extractLsb' 64 2 = r.status.code :=
  BitVec.extractLsb'_append_eq_left

theorem Response.encode_value (r : Response) : r.encode.extractLsb' 0 64 = r.value :=
  BitVec.extractLsb'_append_eq_right

theorem Response.decode_encode (r : Response) : Response.decode r.encode = r := by
  rw [Response.decode, Response.encode_status, Response.encode_value, Status.ofCode_code]

theorem Response.encode_decode (w : BitVec 66) : (Response.decode w).encode = w := by
  rw [Response.encode, Response.decode, Status.code_ofCode]
  exact BitVec.extractLsb'_append_extractLsb' (w := 2) (len := 64)

/-- Settles O5: the status and the value occupy disjoint bits that together are the record. -/
theorem responseRecordLayout : Obligations.ResponseRecordLayout :=
  ⟨fun r => ⟨r.encode_status, r.encode_value, r.decode_encode⟩, Response.encode_decode, rfl, rfl, rfl, rfl⟩

theorem TpRequest.ofRecord_fields (q : TpRequest) (r : RegAddr) (v : Byte) :
    TpRequest.ofRecord q.tpOp (q.reg.getD r) (q.wdata.getD v) = some q := by
  cases q <;> rfl

/-- Settles O6: each request has its own code, so its record reads back as itself, and the other codes as none. -/
theorem transportRequestRecord : Obligations.TransportRequestRecord :=
  ⟨fun _ _ => ⟨rfl, rfl, rfl, rfl, rfl⟩, fun _ _ => ⟨rfl, rfl, rfl, rfl, rfl, rfl⟩, TpRequest.ofRecord_fields,
    fun _ _ => ⟨rfl, rfl, rfl⟩⟩

theorem readByte_assemble_toNat (r : RegAddr) (b0 b1 b2 : Byte) :
    ((TpRequest.readByte r).assemble b0 b1 b2).toNat = b0.toNat := by
  simp only [TpRequest.assemble, BitVec.toNat_setWidth]
  omega

theorem readWord16LE_assemble_toNat (r : RegAddr) (b0 b1 b2 : Byte) :
    ((TpRequest.readWord16LE r).assemble b0 b1 b2).toNat = b0.toNat + 256 * b1.toNat := by
  simp only [TpRequest.assemble, BitVec.toNat_setWidth, toNat_append_eq]
  omega

theorem read24_assemble_toNat (r : RegAddr) (b0 b1 b2 : Byte) :
    ((TpRequest.read24 r).assemble b0 b1 b2).toNat = 65536 * b0.toNat + 256 * b1.toNat + b2.toNat := by
  rw [read24_assemble, BitVec.toNat_ofNat]
  omega

/-- Settles O7: place values of the bytes, in the byte order of each primitive. -/
theorem replyDataIsAssembledInByteOrder : Obligations.ReplyDataIsAssembledInByteOrder :=
  fun r _ b0 b1 b2 => ⟨readByte_assemble_toNat r b0 b1 b2, readWord16LE_assemble_toNat r b0 b1 b2,
    read24_assemble_toNat r b0 b1 b2, rfl, rfl⟩

end Sys2Proof.Machine
end

section
/-!
Proofs of the family `00_scope.md`: the arithmetic primitives (R6 to R9).
-/

namespace Sys2Proof.Machine

/-! ## Wraps (R6) -/

/-- A wrap is the one number in the 32-bit range that differs by a multiple of 2^32. -/
theorem wrap32_eq_iff (x y : Int) : wrap32 x = y ↔ -2 ^ 31 ≤ y ∧ y < 2 ^ 31 ∧ (2 ^ 32 : Int) ∣ x - y := by
  obtain ⟨c, hc⟩ := wrap32_eq x
  have hge := wrap32_ge x
  have hlt := wrap32_lt x
  constructor
  · rintro rfl
    exact ⟨by omega, by omega, -c, by omega⟩
  · rintro ⟨hy, hy', d, hd⟩
    omega

/-- A wrap is the one number in the 64-bit range that differs by a multiple of 2^64. -/
theorem wrap64_eq_iff (x y : Int) : wrap64 x = y ↔ -2 ^ 63 ≤ y ∧ y < 2 ^ 63 ∧ (2 ^ 64 : Int) ∣ x - y := by
  obtain ⟨c, hc⟩ := wrap64_eq x
  have hge := wrap64_ge x
  have hlt := wrap64_lt x
  constructor
  · rintro rfl
    exact ⟨by omega, by omega, -c, by omega⟩
  · rintro ⟨hy, hy', d, hd⟩
    omega

/-- Settles O11: the two characterisations, and that a wrap is a ring homomorphism. -/
theorem wrapIsTheUniqueRepresentative : Obligations.WrapIsTheUniqueRepresentative :=
  ⟨wrap32_eq_iff, wrap64_eq_iff,
    fun x y z => ⟨by rw [wrap32_mul_wrap32, wrap32_add_wrap32], wrap32_sub_wrap32 x y⟩,
    fun x y z => ⟨by rw [wrap64_mul_wrap64, wrap64_add_wrap64], wrap64_sub_wrap64 x y⟩⟩

/-! ## Shifts (R7, R8) -/

/-- A number from −1 up to 0 is rounded down, not toward 0 (R7). -/
theorem asr_neg_one (k : Nat) : asr (-1) k = -1 := by
  have hrange := asr_range (x := -1) (m := 1) k (by decide) (by decide)
  have hbounds := asr_bounds (-1) k
  have hpos : (0 : Int) < ((2 ^ k : Nat) : Int) := by positivity
  have hneg : asr (-1) k ≠ 0 := fun h => by
    rw [h] at hbounds
    omega
  omega

/-- Settles O12: the floor's two bounds, and that a floor shift keeps a symmetric range. -/
theorem arithmeticShiftRoundsDown : Obligations.ArithmeticShiftRoundsDown :=
  ⟨fun x k => by simpa using asr_bounds x k, fun _ k => asr_range k, fun _ k => asr_range k, asr_neg_one, by decide⟩

theorem shl32_eq_wrap32 (x : Int) (k : Nat) : shl32 x k = wrap32 (x * 2 ^ k) := by
  rw [shl32, Nat.cast_pow, Nat.cast_ofNat]

theorem shl64_eq_wrap64 (x : Int) (k : Nat) : shl64 x k = wrap64 (x * 2 ^ k) := by
  rw [shl64, Nat.cast_pow, Nat.cast_ofNat]

theorem shl32_eq_shiftLeft (x : Int) (k : Nat) : shl32 x k = (BitVec.ofInt 32 x <<< k).toInt := by
  rw [← ofInt_mul_two_pow, toInt_ofInt_wrap32, shl32]

theorem shl64_eq_shiftLeft (x : Int) (k : Nat) : shl64 x k = (BitVec.ofInt 64 x <<< k).toInt := by
  rw [← ofInt_mul_two_pow, toInt_ofInt_wrap64, shl64]

/-- Settles O13: a pattern shifted by `k` is the pattern of the product by `2^k`, whose number is the wrap. -/
theorem leftShiftIsThePatternShift : Obligations.LeftShiftIsThePatternShift :=
  ⟨fun x k => ⟨shl32_eq_wrap32 x k, shl32_eq_shiftLeft x k⟩, fun x k => ⟨shl64_eq_wrap64 x k, shl64_eq_shiftLeft x k⟩,
    by decide⟩

/-! ## Division (R9) -/

/-- Truncating division by sign and magnitude. -/
theorem tdiv_eq_sign_mul_natAbs (a b : Int) : a.tdiv b = a.sign * b.sign * ((a.natAbs / b.natAbs : Nat) : Int) := by
  rw [← Int.sign_mul_natAbs (a.tdiv b), Int.natAbs_tdiv, Int.sign_tdiv]
  split
  · rename_i hlt
    rw [Nat.div_eq_of_lt hlt, Nat.cast_zero, mul_zero, zero_mul]
  · rfl

/-- A quotient of 64-bit numbers overflows only at −2^63 / −1. -/
theorem tdiv_range64 {a b : Int} (ha : -2 ^ 63 ≤ a) (ha' : a < 2 ^ 63) (h : ¬(a = -2 ^ 63 ∧ b = -1)) :
    -9223372036854775808 ≤ a.tdiv b ∧ a.tdiv b < 9223372036854775808 := by
  have hle := Int.natAbs_tdiv_le_natAbs a b
  by_cases hmin : a = -2 ^ 63
  · by_cases hb : b.natAbs < 2
    · obtain rfl | rfl : b = 0 ∨ b = 1 := by omega
      all_goals
        subst hmin
        decide
    · have hdiv : (a.tdiv b).natAbs ≤ a.natAbs / 2 :=
        (Int.natAbs_tdiv a b).trans_le (Nat.div_le_div_left (not_lt.1 hb) (by decide))
      omega
  · omega

/-- Settles O14: no quotient but the excluded one leaves the 64-bit range, so the wrap changes none. -/
theorem divisionTruncatesTowardZero : Obligations.DivisionTruncatesTowardZero := by
  refine ⟨fun a b hb ha ha' _ _ h => ?_, fun _ => rfl, ?examples⟩
  case examples => exact fun _ _ => ⟨rfl, rfl, rfl, rfl⟩
  obtain ⟨hge, hlt⟩ := tdiv_range64 ha ha' h
  rw [sdiv64, if_neg (by simpa using h), wrap64_of_range hge hlt, tdiv_eq_sign_mul_natAbs]

end Sys2Proof.Machine
end

section
/-!
Proofs of the family `42_temperature_compensation.md`: the ranges of COMP_T, what of it can wrap, which sample bits it
uses, and its 32-bit datapath (R69 to R75).
-/

namespace Sys2Proof.Machine

/-! ## Ranges (R75) -/

/-- A wrapped number shifted right by `k` lies in the range of `32 - k` bits. -/
theorem asr_wrap32_range {m : Int} (k : Nat) (x : Int) (hm : m * ((2 ^ k : Nat) : Int) = 2147483648) :
    -m ≤ asr (wrap32 x) k ∧ asr (wrap32 x) k < m :=
  asr_range_div k (hm ▸ wrap32_ge x) (hm ▸ wrap32_lt x)

theorem compTVar1_range (a : RawSample) (k : TempCoeffs) : -1048576 ≤ compTVar1 a k ∧ compTVar1 a k ≤ 1048575 :=
  (asr_wrap32_range 11 _ (by decide)).imp_right Int.le_of_lt_add_one

theorem compTVar2_range (a : RawSample) (k : TempCoeffs) : -131072 ≤ compTVar2 a k ∧ compTVar2 a k ≤ 131071 :=
  (asr_wrap32_range 14 _ (by decide)).imp_right Int.le_of_lt_add_one

/-- The sum of `var1` and `var2` never wraps. -/
theorem compT_fine_eq_add (a : RawSample) (k : TempCoeffs) : (compT a k).fine = compTVar1 a k + compTVar2 a k := by
  have h1 := compTVar1_range a k
  have h2 := compTVar2_range a k
  rw [compT_fine, compTFine, wrap32_of_range (by omega) (by omega)]

theorem compT_fine_range (a : RawSample) (k : TempCoeffs) :
    -1179648 ≤ (compT a k).fine ∧ (compT a k).fine ≤ 1179646 := by
  have h1 := compTVar1_range a k
  have h2 := compTVar2_range a k
  rw [compT_fine_eq_add]
  omega

/-! ## Scaling and rounding (R73) -/

section
variable {fine : Int} (hge : -1179648 ≤ fine) (hle : fine ≤ 1179646)
include hge hle

theorem wrap32_fine_mul_five : wrap32 (fine * 5) = fine * 5 :=
  wrap32_of_range (by omega) (by omega)

theorem wrap32_fine_mul_five_add : wrap32 (fine * 5 + 128) = fine * 5 + 128 :=
  wrap32_of_range (by omega) (by omega)

theorem tCentiOf_eq_asr : tCentiOf fine = asr (fine * 5 + 128) 8 := by
  simp only [tCentiOf, wrap32_fine_mul_five hge hle, wrap32_fine_mul_five_add hge hle]

/-- The rounding as the bounds of a floor: half a unit, 128 of 256, is added before it. -/
theorem tCentiOf_bounds : tCentiOf fine * 256 ≤ fine * 5 + 128 ∧ fine * 5 + 128 < (tCentiOf fine + 1) * 256 := by
  rw [tCentiOf_eq_asr hge hle]
  exact asr_bounds _ 8

end

/-- Settles O19: the floor of `fine*5/256 + 1/2`. -/
theorem centiRoundsToNearest : Obligations.CentiRoundsToNearest := by
  intro fine hge hle
  have h := tCentiOf_bounds hge hle
  omega

/-- Settles O16, from the ranges of `var1` and `var2`. -/
theorem temperatureStaysInRange : Obligations.TemperatureStaysInRange := by
  intro a k
  obtain ⟨hge, hle⟩ := compT_fine_range a k
  have hcenti := tCentiOf_bounds hge hle
  rw [← compT_tCenti] at hcenti
  exact ⟨compTVar1_range a k, compTVar2_range a k, compT_fine_eq_add a k, ⟨hge, hle⟩, wrap32_fine_mul_five hge hle,
    wrap32_fine_mul_five_add hge hle, by omega⟩

/-- Settles O15. -/
theorem temperatureWorkedExample : Obligations.TemperatureWorkedExample := by
  unfold Obligations.TemperatureWorkedExample
  decide

/-! ## What can wrap (R71) -/

theorem asr_natCast (n k : Nat) : asr (n : Int) k = ((n / 2 ^ k : Nat) : Int) := by
  rw [asr, Int.natCast_ediv]

section
variable (a : RawSample) (w1 w2 w3 : CalWord)

theorem TempCoeffs.t1_ofWords : (TempCoeffs.ofWords w1 w2 w3).t1 = w1.toNat := Coeff.value_unsigned (c := .T1) rfl w1
theorem TempCoeffs.t2_ofWords : (TempCoeffs.ofWords w1 w2 w3).t2 = w2.toInt := Coeff.value_signed (c := .T2) rfl w2
theorem TempCoeffs.t3_ofWords : (TempCoeffs.ofWords w1 w2 w3).t3 = w3.toInt := Coeff.value_signed (c := .T3) rfl w3

theorem shl32_t1 : shl32 (TempCoeffs.ofWords w1 w2 w3).t1 1 = 2 * (w1.toNat : Int) := by
  have h := w1.isLt
  rw [shl32_eq_wrap32, TempCoeffs.t1_ofWords, wrap32_of_range (by omega) (by omega)]
  omega

/-- The first difference of COMP_T, `(adc_T >> 3) - (T1 << 1)`, is exact. -/
theorem wrap32_var1_difference :
    wrap32 (asr a.toNat 3 - shl32 (TempCoeffs.ofWords w1 w2 w3).t1 1) = (a.toNat / 8 : Nat) - 2 * (w1.toNat : Int) := by
  have h := w1.isLt
  have ha := a.isLt
  have hasr : asr a.toNat 3 = ((a.toNat / 8 : Nat) : Int) := asr_natCast _ 3
  rw [shl32_t1, hasr, wrap32_of_range (by omega) (by omega)]

/-- The second difference, `(adc_T >> 4) - T1`, is exact. -/
theorem wrap32_var2_difference :
    wrap32 (asr a.toNat 4 - (TempCoeffs.ofWords w1 w2 w3).t1) = (a.toNat / 16 : Nat) - (w1.toNat : Int) := by
  have h := w1.isLt
  have ha := a.isLt
  have hasr : asr a.toNat 4 = ((a.toNat / 16 : Nat) : Int) := asr_natCast _ 4
  rw [TempCoeffs.t1_ofWords, hasr, wrap32_of_range (by omega) (by omega)]

theorem compTVar1_ofWords : compTVar1 a (.ofWords w1 w2 w3) =
    asr (wrap32 (((a.toNat / 8 : Nat) - 2 * (w1.toNat : Int)) * w2.toInt)) 11 := by
  simp only [compTVar1, wrap32_var1_difference, TempCoeffs.t2_ofWords]

theorem compTVar2_ofWords : compTVar2 a (.ofWords w1 w2 w3) =
    asr (wrap32 (asr (wrap32 (((a.toNat / 16 : Nat) - (w1.toNat : Int)) ^ 2)) 12 * w3.toInt)) 14 := by
  simp only [compTVar2, wrap32_var2_difference, TempCoeffs.t3_ofWords, sq]

end

/-- A square below 2^32 wraps to a negative number exactly when it is 2^31 or more. -/
theorem wrap32_neg_iff {x : Int} (h0 : 0 ≤ x) (h : x < 2 ^ 32) : wrap32 x < 0 ↔ 2 ^ 31 ≤ x := by
  obtain ⟨c, hc⟩ := wrap32_eq x
  have hge := wrap32_ge x
  have hlt := wrap32_lt x
  omega

/-- 46341 is the first number whose square passes 2^31 − 1. -/
theorem wrap32_sq_neg_iff {d : Int} (hge : -65535 ≤ d) (hle : d ≤ 65535) :
    wrap32 (d * d) < 0 ↔ d ≤ -46341 ∨ 46341 ≤ d := by
  rw [wrap32_neg_iff (mul_self_nonneg d) (by nlinarith)]
  constructor
  · intro h
    by_contra hd
    have hprod : 0 ≤ (46340 - d) * (46340 + d) := mul_nonneg (by omega) (by omega)
    nlinarith
  · rintro (h | h) <;> nlinarith

/-- Settles O17: each exact step by its range, `var1` and `var2` from them, and the square by its size. -/
theorem temperatureWrapsOnlyInProducts : Obligations.TemperatureWrapsOnlyInProducts := by
  refine ⟨fun a w1 w2 w3 => ?_, fun _ => wrap32_sq_neg_iff⟩
  obtain ⟨hge, hle⟩ := compT_fine_range a (.ofWords w1 w2 w3)
  exact ⟨shl32_t1 w1 w2 w3, wrap32_var1_difference a w1 w2 w3, wrap32_var2_difference a w1 w2 w3,
    compTVar1_ofWords a w1 w2 w3, compTVar2_ofWords a w1 w2 w3, compT_fine_eq_add a _, wrap32_fine_mul_five hge hle,
    (compT_tCenti a _).trans (tCentiOf_eq_asr hge hle)⟩

/-! ## The sample bits that are used (R70) -/

theorem RawSample.toNat_div_eq {a a' : RawSample} {k n : Nat} (hn : n + k = 20)
    (h : a.extractLsb' k n = a'.extractLsb' k n) : a.toNat / 2 ^ k = a'.toNat / 2 ^ k := by
  have hdiv : ∀ b : RawSample, (b.extractLsb' k n).toNat = b.toNat / 2 ^ k := fun b => by
    rw [BitVec.extractLsb'_toNat, Nat.shiftRight_eq_div_pow, Nat.mod_eq_of_lt]
    have hb : b.toNat < 2 ^ n * 2 ^ k := by rw [← pow_add, hn]; exact b.isLt
    exact Nat.div_lt_of_lt_mul (by rwa [mul_comm] at hb)
  rw [← hdiv, h, hdiv]

/-- COMP_T takes the sample shifted right by 3 into `var1`. -/
theorem compTVar1_congr {a a' : RawSample} (h : a.toNat / 8 = a'.toNat / 8) (k : TempCoeffs) :
    compTVar1 a k = compTVar1 a' k := by
  have hasr : asr a.toNat 3 = asr a'.toNat 3 := by rw [asr_natCast, asr_natCast]; exact congrArg _ h
  simp only [compTVar1, hasr]

/-- COMP_T takes the sample shifted right by 4 into `var2`. -/
theorem compTVar2_congr {a a' : RawSample} (h : a.toNat / 16 = a'.toNat / 16) (k : TempCoeffs) :
    compTVar2 a k = compTVar2 a' k := by
  have hasr : asr a.toNat 4 = asr a'.toNat 4 := by rw [asr_natCast, asr_natCast]; exact congrArg _ h
  simp only [compTVar2, hasr]

/-- Settles O18: the two shifts drop three and four bits. -/
theorem temperatureIgnoresLowSampleBits : Obligations.TemperatureIgnoresLowSampleBits := by
  refine ⟨fun a a' k h => ?_, fun a a' k h => compTVar2_congr (RawSample.toNat_div_eq (k := 4) rfl h) k⟩
  have h8 : a.toNat / 8 = a'.toNat / 8 := RawSample.toNat_div_eq (k := 3) rfl h
  have h16 : a.toNat / 16 = a'.toNat / 16 := by omega
  simp only [compT, compTFine, compTVar1_congr h8, compTVar2_congr h16]

/-! ## The 32-bit datapath (R69, R71) -/

/-- Zero extension to a wider register keeps the number. -/
theorem toInt_setWidth_of_lt {m n : Nat} (h : m < n) (x : BitVec m) : (x.setWidth n).toInt = x.toNat := by
  have hx := x.isLt
  have hmono : 2 ^ (m + 1) ≤ 2 ^ n := Nat.pow_le_pow_right (by decide) h
  have hlt : x.toNat < 2 ^ n := by omega
  rw [BitVec.toInt_eq_toNat_of_lt] <;> rw [BitVec.toNat_setWidth, Nat.mod_eq_of_lt hlt]
  omega

theorem toInt_datapathFine (a : RawSample) (w1 w2 w3 : CalWord) :
    (datapathFine a w1 w2 w3).toInt = (compT a (.ofWords w1 w2 w3)).fine := by
  simp only [datapathFine, compT, compTFine, compTVar1, compTVar2, toInt_add32, toInt_sub32, toInt_mul32,
    toInt_sshiftRight_eq_asr, toInt_shiftLeft_eq_shl32, toInt_setWidth_of_lt (show 20 < 32 by decide),
    toInt_setWidth_of_lt (show 16 < 32 by decide), BitVec.toInt_signExtend_of_le (show 16 ≤ 32 by decide),
    TempCoeffs.t1_ofWords, TempCoeffs.t2_ofWords, TempCoeffs.t3_ofWords]

theorem toInt_datapathTCenti (fine : BitVec 32) : (datapathTCenti fine).toInt = tCentiOf fine.toInt := by
  have h5 : (5#32).toInt = 5 := rfl
  have h128 : (128#32).toInt = 128 := rfl
  simp only [datapathTCenti, tCentiOf, toInt_sshiftRight_eq_asr, toInt_add32, toInt_mul32, h5, h128]

/-- Settles O20: each operation of the datapath is the integer one followed by a wrap. -/
theorem temperatureMatchesTheDatapath : Obligations.TemperatureMatchesTheDatapath := by
  intro a w1 w2 w3
  rw [toInt_datapathTCenti, toInt_datapathFine, compT_tCenti]
  exact ⟨rfl, rfl⟩

end Sys2Proof.Machine
end

section
/-!
Proofs of the family `43_pressure_compensation.md`: the divisor and the degenerate test, the 64-bit datapath, the division
that never overflows, and COMP_P at the reference temperature (R78 to R89).
-/

namespace Sys2Proof.Machine

/-! ## The words as coefficients (R62) -/

section
variable (w1 w2 w3 w4 w5 w6 w7 w8 w9 : CalWord)

theorem PressCoeffs.p1_ofWords : (PressCoeffs.ofWords w1 w2 w3 w4 w5 w6 w7 w8 w9).p1 = w1.toNat :=
  Coeff.value_unsigned (c := .P1) rfl w1
theorem PressCoeffs.p2_ofWords : (PressCoeffs.ofWords w1 w2 w3 w4 w5 w6 w7 w8 w9).p2 = w2.toInt :=
  Coeff.value_signed (c := .P2) rfl w2
theorem PressCoeffs.p3_ofWords : (PressCoeffs.ofWords w1 w2 w3 w4 w5 w6 w7 w8 w9).p3 = w3.toInt :=
  Coeff.value_signed (c := .P3) rfl w3
theorem PressCoeffs.p4_ofWords : (PressCoeffs.ofWords w1 w2 w3 w4 w5 w6 w7 w8 w9).p4 = w4.toInt :=
  Coeff.value_signed (c := .P4) rfl w4
theorem PressCoeffs.p5_ofWords : (PressCoeffs.ofWords w1 w2 w3 w4 w5 w6 w7 w8 w9).p5 = w5.toInt :=
  Coeff.value_signed (c := .P5) rfl w5
theorem PressCoeffs.p6_ofWords : (PressCoeffs.ofWords w1 w2 w3 w4 w5 w6 w7 w8 w9).p6 = w6.toInt :=
  Coeff.value_signed (c := .P6) rfl w6
theorem PressCoeffs.p7_ofWords : (PressCoeffs.ofWords w1 w2 w3 w4 w5 w6 w7 w8 w9).p7 = w7.toInt :=
  Coeff.value_signed (c := .P7) rfl w7
theorem PressCoeffs.p8_ofWords : (PressCoeffs.ofWords w1 w2 w3 w4 w5 w6 w7 w8 w9).p8 = w8.toInt :=
  Coeff.value_signed (c := .P8) rfl w8
theorem PressCoeffs.p9_ofWords : (PressCoeffs.ofWords w1 w2 w3 w4 w5 w6 w7 w8 w9).p9 = w9.toInt :=
  Coeff.value_signed (c := .P9) rfl w9

end

/-- Settles O21. -/
theorem pressureVectors : Obligations.PressureVectors := by
  unfold Obligations.PressureVectors
  decide

/-! ## The degenerate test (R82, R83) -/

theorem compPPre_range (fine : Int) (k : PressCoeffs) :
    -9223372036854775808 ≤ compPPre fine k ∧ compPPre fine k < 9223372036854775808 :=
  ⟨wrap64_ge _, wrap64_lt _⟩

/-- The divisor is the shifted product rounded down. -/
theorem compPVar1_bounds (fine : Int) (k : PressCoeffs) :
    compPVar1 fine k * 8589934592 ≤ compPPre fine k ∧ compPPre fine k < (compPVar1 fine k + 1) * 8589934592 :=
  asr_bounds _ 33

theorem compPPre_of_p1_eq_zero (fine : Int) {k : PressCoeffs} (h : k.p1 = 0) : compPPre fine k = 0 := by
  simp only [compPPre, h, mul_zero]
  rfl

/-- Settles O22, from the bounds of the floor shift and the range of the product. -/
theorem degenerateTestIsOnTheShiftedProduct : Obligations.DegenerateTestIsOnTheShiftedProduct := by
  intro fine k
  have hpre := compPPre_range fine k
  have hvar1 := compPVar1_bounds fine k
  refine ⟨?_, compP_degenerate, fun hp1 => ?_, ?_, ?_⟩
  case refine_2 => rw [compPVar1, compPPre_of_p1_eq_zero fine hp1]; rfl
  all_goals omega

/-! ## The 64-bit datapath (R79, R80) -/

section
variable (a : RawSample) (fine : Fine) (w1 w2 w3 w4 w5 w6 w7 w8 w9 : CalWord)

theorem toInt_datapathVar1 : (datapathVar1 fine w1 w2 w3).toInt =
    compPVar1 fine.toInt (.ofWords w1 w2 w3 w4 w5 w6 w7 w8 w9) := by
  have hv : (128000#64).toInt = 128000 := rfl
  have h47 : (1#64 <<< 47).toInt = 140737488355328 := rfl
  simp only [datapathVar1, compPVar1, compPPre, compPV, toInt_add64, toInt_sub64, toInt_mul64,
    toInt_sshiftRight_eq_asr, toInt_shiftLeft_eq_shl64, toInt_setWidth_of_lt (show 16 < 64 by decide),
    BitVec.toInt_signExtend_of_le (show 16 ≤ 64 by decide), BitVec.toInt_signExtend_of_le (show 32 ≤ 64 by decide),
    hv, h47, PressCoeffs.p1_ofWords, PressCoeffs.p2_ofWords, PressCoeffs.p3_ofWords]

theorem toInt_datapathNum : (datapathNum a fine w4 w5 w6).toInt =
    compPNum a fine.toInt (.ofWords w1 w2 w3 w4 w5 w6 w7 w8 w9) := by
  have hv : (128000#64).toInt = 128000 := rfl
  have h20 : (1048576#64).toInt = 1048576 := rfl
  have h3125 : (3125#64).toInt = 3125 := rfl
  have hp0 : wrap64 (1048576 - (a.toNat : Int)) = 1048576 - (a.toNat : Int) := by
    have ha := a.isLt
    exact wrap64_of_range (by omega) (by omega)
  simp only [datapathNum, compPNum, compPVar2, compPV, toInt_add64, toInt_sub64, toInt_mul64,
    toInt_shiftLeft_eq_shl64, toInt_setWidth_of_lt (show 20 < 64 by decide),
    BitVec.toInt_signExtend_of_le (show 16 ≤ 64 by decide), BitVec.toInt_signExtend_of_le (show 32 ≤ 64 by decide),
    hv, h20, h3125, hp0, PressCoeffs.p4_ofWords, PressCoeffs.p5_ofWords, PressCoeffs.p6_ofWords]

theorem toInt_datapathOut (q : BitVec 64) : (datapathOut q w7 w8 w9).toInt =
    compPOut q.toInt (.ofWords w1 w2 w3 w4 w5 w6 w7 w8 w9) := by
  simp only [datapathOut, compPOut, toInt_add64, toInt_mul64, toInt_sshiftRight_eq_asr, toInt_shiftLeft_eq_shl64,
    BitVec.toInt_signExtend_of_le (show 16 ≤ 64 by decide),
    PressCoeffs.p7_ofWords, PressCoeffs.p8_ofWords, PressCoeffs.p9_ofWords]

end

/-- Settles O23: each operation of the datapath is the integer one followed by a wrap, and the divider is `sdiv64`. -/
theorem pressureMatchesTheDatapath : Obligations.PressureMatchesTheDatapath := by
  intro a f w1 w2 w3 w4 w5 w6 w7 w8 w9
  have hvar1 := toInt_datapathVar1 f w1 w2 w3 w4 w5 w6 w7 w8 w9
  by_cases h0 : datapathVar1 f w1 w2 w3 = 0#64
  · rw [h0, BitVec.toInt_zero] at hvar1
    rw [compP_degenerate hvar1.symm]
    simp only [datapathPQ8, h0, if_true, BitVec.toInt_zero]
  · have hne : (datapathVar1 f w1 w2 w3).toInt ≠ 0 := fun h => h0 (BitVec.toInt_inj.1 (by rw [h, BitVec.toInt_zero]))
    simp only [datapathPQ8, h0, if_false]
    rw [toInt_datapathOut w1 w2 w3 w4 w5 w6, toInt_sdiv_eq_sdiv64 _ _ hne, compP, dif_neg (hvar1 ▸ hne)]
    simp only [toInt_datapathNum a f w1 w2 w3 w4 w5 w6 w7 w8 w9, hvar1]

/-! ## No division overflows (R84, R87) -/

theorem compPV_of_range {fine : Int} (hge : -1179648 ≤ fine) (hle : fine ≤ 1179646) : compPV fine = fine - 128000 :=
  wrap64_of_range (by omega) (by omega)

/-- `var2` as one sum, wrapped once. -/
theorem compPVar2_eq_wrap64 (fine : Int) (k : PressCoeffs) : compPVar2 fine k =
    wrap64 (compPV fine * compPV fine * k.p6 + compPV fine * k.p5 * 131072 + k.p4 * 34359738368) := by
  simp [compPVar2, shl64, wrap64]

theorem abs_mul_le_mul {x y m n : Int} (hx : |x| ≤ m) (hy : |y| ≤ n) : |x * y| ≤ m * n :=
  (abs_mul x y).trans_le (mul_le_mul hx hy (abs_nonneg y) ((abs_nonneg x).trans hx))

theorem abs_toInt_le (w : CalWord) : |w.toInt| ≤ 32768 :=
  abs_le.2 ⟨w.le_toInt, w.toInt_lt.le⟩

/-- R87: the bound is 1307648² · 2^15 + 1307648 · 2^15 · 2^17 + 2^15 · 2^35. -/
theorem compPVar2_range {fine : Int} (hge : -1179648 ≤ fine) (hle : fine ≤ 1179646)
    (w1 w2 w3 w4 w5 w6 w7 w8 w9 : CalWord) :
    -62773627090632704 ≤ compPVar2 fine (.ofWords w1 w2 w3 w4 w5 w6 w7 w8 w9) ∧
      compPVar2 fine (.ofWords w1 w2 w3 w4 w5 w6 w7 w8 w9) ≤ 62773627090632704 := by
  have hv : |compPV fine| ≤ 1307648 := by
    rw [compPV_of_range hge hle]
    exact abs_le.2 ⟨by omega, by omega⟩
  have h6 := abs_le.1 (abs_mul_le_mul (abs_mul_le_mul hv hv) (abs_toInt_le w6))
  have h5 := abs_le.1 (abs_mul_le_mul hv (abs_toInt_le w5))
  have h4 := abs_le.1 (abs_toInt_le w4)
  rw [compPVar2_eq_wrap64, PressCoeffs.p4_ofWords, PressCoeffs.p5_ofWords, PressCoeffs.p6_ofWords,
    wrap64_of_range (by omega) (by omega)]
  omega

/-- The factor is odd, so a wrapped product is −2^63 only where the other factor is a multiple of 2^63. -/
theorem wrap64_mul_3125_ne {t : Int} (hge : -9223372036854775808 < t) (hlt : t < 9223372036854775808) :
    wrap64 (t * 3125) ≠ -2 ^ 63 := by
  obtain ⟨c, hc⟩ := wrap64_eq (t * 3125)
  omega

/-- The subtraction in the dividend does not wrap where `var2` keeps to its bound. -/
theorem compPNum_ne_min {a : RawSample} {fine : Int} {k : PressCoeffs}
    (h : -62773627090632704 ≤ compPVar2 fine k ∧ compPVar2 fine k ≤ 62773627090632704) :
    compPNum a fine k ≠ -2 ^ 63 := by
  have ha := a.isLt
  have hshl : shl64 (1048576 - (a.toNat : Int)) 31 = (1048576 - (a.toNat : Int)) * 2147483648 :=
    wrap64_of_range (by omega) (by omega)
  have ht := wrap64_of_range (x := (1048576 - (a.toNat : Int)) * 2147483648 - compPVar2 fine k) (by omega) (by omega)
  simp only [compPNum, hshl, ht]
  exact wrap64_mul_3125_ne (by omega) (by omega)

/-- Settles O24. -/
theorem divisionOverflowIsUnreachable : Obligations.DivisionOverflowIsUnreachable := by
  intro a fine w1 w2 w3 w4 w5 w6 w7 w8 w9 hge hle
  have hvar2 := compPVar2_range hge hle w1 w2 w3 w4 w5 w6 w7 w8 w9
  exact ⟨hvar2, compPNum_ne_min hvar2⟩

/-! ## The reference temperature (R89 (f)) -/

theorem compPV_reference : compPV 128000 = 0 := rfl

theorem compPPre_reference (k : PressCoeffs) : compPPre 128000 k = wrap64 (140737488355328 * k.p1) := by
  have h0 : wrap64 0 = 0 := rfl
  have hu : wrap64 (140737488355328 + wrap64 (asr 0 8 + shl64 0 12)) = 140737488355328 := rfl
  simp only [compPPre, compPV_reference, zero_mul, h0, hu]

theorem compPVar2_reference (k : PressCoeffs) : compPVar2 128000 k = wrap64 (k.p4 * 34359738368) := by
  simp only [compPVar2_eq_wrap64, compPV_reference, zero_mul, zero_add]

theorem compPVar1_reference_ofWords (w1 w2 w3 w4 w5 w6 w7 w8 w9 : CalWord) :
    compPVar1 128000 (.ofWords w1 w2 w3 w4 w5 w6 w7 w8 w9) = 16384 * (w1.toNat : Int) := by
  have h1 := w1.isLt
  have hbounds := compPVar1_bounds 128000 (.ofWords w1 w2 w3 w4 w5 w6 w7 w8 w9)
  rw [compPPre_reference, PressCoeffs.p1_ofWords, wrap64_of_range (by omega) (by omega)] at hbounds
  omega

theorem compPVar2_reference_ofWords (w1 w2 w3 w4 w5 w6 w7 w8 w9 : CalWord) :
    compPVar2 128000 (.ofWords w1 w2 w3 w4 w5 w6 w7 w8 w9) = w4.toInt * 2 ^ 35 := by
  have h4 := abs_le.1 (abs_toInt_le w4)
  rw [compPVar2_reference, PressCoeffs.p4_ofWords]
  exact wrap64_of_range (by omega) (by omega)

/-- The steps after the division use `P7`, `P8` and `P9` only. -/
theorem compPOut_congr (q : Int) {k k' : PressCoeffs} (h7 : k.p7 = k'.p7) (h8 : k.p8 = k'.p8) (h9 : k.p9 = k'.p9) :
    compPOut q k = compPOut q k' := by
  simp only [compPOut, h7, h8, h9]

/-- COMP_P uses the fine temperature and the first six coefficients through the divisor and `var2` only. -/
theorem compP_congr (a : RawSample) {fine : Int} {k k' : PressCoeffs} (hvar1 : compPVar1 fine k = compPVar1 fine k')
    (hvar2 : compPVar2 fine k = compPVar2 fine k') (h7 : k.p7 = k'.p7) (h8 : k.p8 = k'.p8) (h9 : k.p9 = k'.p9) :
    compP a fine k = compP a fine k' := by
  simp only [compP, compPNum, hvar1, hvar2, compPOut_congr _ h7 h8 h9]

/-- Settles O25: with `v` = 0 every term of `P2`, `P3`, `P5` and `P6` is 0. -/
theorem pressureAtTheReferenceFine : Obligations.PressureAtTheReferenceFine := by
  refine ⟨fun w1 w2 w3 w4 w5 w6 w7 w8 w9 => ⟨compPVar1_reference_ofWords .., compPVar2_reference_ofWords ..⟩,
    fun a k k' h1 h4 h7 h8 h9 => compP_congr a ?_ ?_ h7 h8 h9⟩
  · rw [compPVar1, compPVar1, compPPre_reference, compPPre_reference, h1]
  · rw [compPVar2_reference, compPVar2_reference, h4]

end Sys2Proof.Machine
end

section
/-!
Proofs of the families `10_state.md` and `70_reset_and_hazards.md` about registers, outputs, the hardware reset, and what
every step keeps (R15, R22, R25, R26, R97 (d), R122, R131).
-/

namespace Sys2Proof.Machine

/-! ## Reset and outputs (R25, R26, R122) -/

/-- Settles O26. -/
theorem resetStateHoldsNoValue : Obligations.ResetStateHoldsNoValue :=
  ⟨rfl, State.coeff_of_cal_none rfl, rfl, rfl, rfl, rfl, rfl⟩

theorem step_hardwareReset {s : State} {rest : List Input} (h : s.inputs = .hardwareReset :: rest) :
    step s = .next { s with inputs := rest }.hardwareReset := by
  simp only [step, h]

/-- Settles O27: the reset is taken before the port is looked at. -/
theorem hardwareResetFromAnyState : Obligations.HardwareResetFromAnyState :=
  fun _ _ => step_hardwareReset

theorem State.tFineValid_eq_zero_iff (s : State) : s.tFineValid = 0#1 ↔ s.tFine = none := by
  cases h : s.tFine <;> simp [State.tFineValid, h]

/-- Settles O28. -/
theorem statusOutputsShowTheState : Obligations.StatusOutputsShowTheState := by
  intro s
  refine ⟨?_, ?_, s.tFineValid_eq_zero_iff, fun _ => Iff.rfl⟩
  all_goals cases h : s.control <;> simp [State.stateQ, h]

/-! ## Steps (R11, R48, R131) -/

theorem step_command {s : State} {w : CommandWord} {rest : List Input} (h : s.inputs = .command w :: rest)
    (ho : s.outstanding = none) : step s = exec (decode w) { s with inputs := rest } := by
  simp only [step, h, ho]

theorem step_idle {s : State} (h : s.inputs = []) (ho : s.outstanding = none) : step s = .next s := by
  simp only [step, h, ho]

/-- The host's word is put in front of the inputs, on a free port (log 19). -/
theorem State.withFetchWord_encode (s : State) (i : Instr) :
    s.withFetchWord 8 (encode i).toNat = { s with inputs := .command (encode i) :: s.inputs, outstanding := none } := by
  simp only [State.withFetchWord, commandWordOf_toNat]
  rfl

/-- Settles O60. -/
theorem aStepRunsTheDecodedCommand : Obligations.AStepRunsTheDecodedCommand := by
  refine ⟨fun _ _ _ => step_command, fun s i => ?_⟩
  rw [State.withFetchWord_encode, step_command rfl rfl, decode_encode]

/-- What idling, a hardware reset and every command keep, every step keeps. -/
theorem step_keeps {I : State → Prop} (hinputs : ∀ (s : State) (rest : List Input), I s → I { s with inputs := rest })
    (hreset : ∀ s : State, I s → I s.hardwareReset)
    (hexec : ∀ (i : Instr) (s t : State), s.outstanding = none → I s → exec i s = .next t → I t)
    {s t : State} (hs : I s) (h : step s = .next t) : I t := by
  rcases step_cases h with ⟨-, -, rfl⟩ | ⟨rest, -, rfl⟩ | ⟨w, rest, -, ho, hx⟩
  · exact hs
  · exact hreset _ (hinputs s rest hs)
  · exact hexec (decode w) { s with inputs := rest } t ho (hinputs s rest hs) hx

/-! ## A command always answers where the registers hold values (R16, R22) -/

theorem checked_ne_refused {i : Instr} {s : State} {body : Host.Outcome State Fault Refusal} {r : Refusal}
    (h : body ≠ .refused r) : checked i s body ≠ .refused r := by
  unfold checked
  split
  · exact h
  · nofun

theorem finishReading_ne_refused (x : Except Fault (Flow Int)) (r : Refusal) : finishReading x ≠ .refused r := by
  cases x <;> nofun

theorem exec_ne_refused (i : Instr) (s : State) (r : Refusal) : exec i s ≠ .refused r := by
  cases i with
  | begin => exact checked_ne_refused nofun
  | readTemperature => exact checked_ne_refused (finishReading_ne_refused _ r)
  | readPressure => exact checked_ne_refused (finishReading_ne_refused _ r)
  | reset => exact checked_ne_refused nofun

/-- Only an empty coefficient register in `Ready` keeps a command from answering a next state. -/
theorem State.Lifecycle.exec_answers {s : State} (hs : s.Lifecycle) (i : Instr) : ∃ t, exec i s = .next t := by
  cases h : exec i s with
  | next t => exact ⟨t, rfl⟩
  | refused r => exact absurd h (exec_ne_refused i s r)
  | fault f =>
    obtain ⟨hready, c, -, hnone⟩ := exec_fault h
    have hsome := hs.ready_has_cal hready c
    rw [hnone] at hsome
    cases hsome

/-! ## What a command keeps, by how it treats the registers (R100) -/

section
variable {i : Instr} {s t : State} (h : Wrote i s t)
include h

theorem Wrote.keeps_lifecycle (hs : s.Lifecycle) : t.Lifecycle := by
  cases h with
  | nothing hc hcal hf hl =>
    refine ⟨fun hready c => ?_, fun hun => ?_⟩
    · rw [State.coeff_congr hcal]
      exact hs.ready_has_cal (hc ▸ hready) c
    · rw [hcal, hf]
      exact hs.uninitialized_is_empty (hc ▸ hun)
  | begun hi hctl hc hf hcal hr ho => exact ⟨fun _ => hcal, fun hun => nomatch hc.symm.trans hun⟩
  | sampled hi hctl hc hcal w k hk hf hl =>
    refine ⟨fun _ c => ?_, fun hun => nomatch hc.symm.trans hun⟩
    rw [State.coeff_congr hcal]
    exact hs.ready_has_cal hctl c
  | wiped hi hctl hc hcal hf ho => exact ⟨fun hready => (nomatch hc.symm.trans hready), fun _ => ⟨hcal, hf⟩⟩

theorem Wrote.keeps_fineInRange (hs : s.FineInRange) : t.FineInRange := by
  intro f hft
  cases h with
  | nothing hc hcal hf hl => exact hs f (hf ▸ hft)
  | begun hi hctl hc hf hcal hr ho => cases hf.symm.trans hft
  | sampled hi hctl hc hcal w k hk hf hl =>
    cases hf.symm.trans hft
    rw [toInt_ofInt_fine]
    exact compT_fine_range _ k
  | wiped hi hctl hc hcal hf ho => cases hf.symm.trans hft

theorem Wrote.keeps_fineIsFresh (hs : s.FineIsFresh) : t.FineIsFresh := by
  intro f hft
  cases h with
  | nothing hc hcal hf hl =>
    obtain ⟨a, w1, w2, w3, hlast, h1, h2, h3, hfine⟩ := hs f (hf ▸ hft)
    simp only [hl, State.coeff_congr hcal]
    exact ⟨a, w1, w2, w3, hlast, h1, h2, h3, hfine⟩
  | begun hi hctl hc hf hcal hr ho => cases hf.symm.trans hft
  | sampled hi hctl hc hcal w k hk hf hl =>
    cases hf.symm.trans hft
    obtain ⟨w1, w2, w3, h1, h2, h3, rfl⟩ := State.tempCoeffs_ok hk
    simp only [State.coeff_congr hcal]
    exact ⟨sampleOf w, w1, w2, w3, hl, h1, h2, h3, toInt_ofInt_fine _ _⟩
  | wiped hi hctl hc hcal hf ho => cases hf.symm.trans hft

end

/-! ## The invariants one by one -/

theorem State.lifecycle_of_empty {s : State} (hc : s.control = .uninitialized) (hcal : s.cal = CalStore.none)
    (hf : s.tFine = none) : s.Lifecycle :=
  ⟨fun hready => (nomatch hc.symm.trans hready), fun _ => ⟨hcal, hf⟩⟩

theorem State.fineInRange_of_none {s : State} (hf : s.tFine = none) : s.FineInRange :=
  fun _ h => nomatch hf.symm.trans h

theorem State.fineIsFresh_of_none {s : State} (hf : s.tFine = none) : s.FineIsFresh :=
  fun _ h => nomatch hf.symm.trans h

theorem State.outstandingIsLast_of_none {s : State} (ho : s.outstanding = none) : s.OutstandingIsLast :=
  fun _ h => nomatch ho.symm.trans h

theorem step_keeps_lifecycle {s t : State} (hs : s.Lifecycle) (h : step s = .next t) : t.Lifecycle :=
  step_keeps (I := State.Lifecycle) (fun _ _ h => ⟨h.ready_has_cal, h.uninitialized_is_empty⟩)
    (fun _ _ => State.lifecycle_of_empty rfl rfl rfl) (fun _ _ _ _ hs hx => (exec_wrote hx).keeps_lifecycle hs) hs h

theorem step_keeps_fineInRange {s t : State} (hs : s.FineInRange) (h : step s = .next t) : t.FineInRange :=
  step_keeps (I := State.FineInRange) (fun _ _ => id) (fun _ _ => State.fineInRange_of_none rfl)
    (fun _ _ _ _ hs hx => (exec_wrote hx).keeps_fineInRange hs) hs h

theorem step_keeps_fineIsFresh {s t : State} (hs : s.FineIsFresh) (h : step s = .next t) : t.FineIsFresh :=
  step_keeps (I := State.FineIsFresh) (fun _ _ => id) (fun _ _ => State.fineIsFresh_of_none rfl)
    (fun _ _ _ _ hs hx => (exec_wrote hx).keeps_fineIsFresh hs) hs h

/-- Every tabled request is one the core issues (R38, R101). -/
theorem successTrace_issuedByCore (b : Bool) (i : Instr) : ∀ q ∈ successTrace b i, q.issuedByCore := by
  cases b <;> cases i <;> decide

/-- The events of a command carry tabled requests only. -/
theorem Ending.request_mem {s t : State} {es : List TpEvent} {full : List TpRequest} (h : Ending s t es full)
    {e : TpEvent} (he : e ∈ es) : e.request ∈ full :=
  h.requests_prefix.subset (List.mem_map_of_mem he)

theorem exec_keeps_onlyIssued {i : Instr} {s t : State} (hs : s.OnlyIssued) (h : exec i s = .next t) : t.OnlyIssued := by
  obtain ⟨es, hR, hE⟩ := exec_cases h
  intro e he
  rw [hR.trace, List.mem_append] at he
  exact he.elim (hs e) fun he => successTrace_issuedByCore _ i _ (hE.request_mem he)

theorem step_keeps_onlyIssued {s t : State} (hs : s.OnlyIssued) (h : step s = .next t) : t.OnlyIssued :=
  step_keeps (I := State.OnlyIssued) (fun _ _ => id) (fun _ => id) (fun _ _ _ _ => exec_keeps_onlyIssued) hs h

/-- A command responds once, with the value 0 for an error, or it hangs: then it does not respond, and its last event is
the request left outstanding (R49, R91, R131). -/
theorem Ending.responded_or_hung {s t : State} {es : List TpEvent} {full : List TpRequest} (h : Ending s t es full) :
    (t.outstanding = s.outstanding ∧ ∃ r : Response, t.responses = s.responses ++ [r] ∧
      (r.status ≠ .ok → r.value = 0#64)) ∨
    ∃ q, t.outstanding = some q ∧ es.getLast? = some ⟨q, none⟩ ∧ t.responses = s.responses := by
  cases h with
  | refused h _ =>
    subst h
    exact .inl ⟨rfl, _, rfl, fun _ => rfl⟩
  | ok v h ho _ _ => exact .inl ⟨ho, _, h, fun hne => absurd rfl hne⟩
  | raised k fs e _ h ho _ _ _ => exact .inl ⟨ho, _, h, fun _ => rfl⟩
  | hung q fs hes h ho _ _ => exact .inr ⟨q, ho, by rw [hes, List.getLast?_concat], h⟩

/-- A command that leaves a transaction outstanding issued it last, got no reply to it and did not respond (R131). -/
theorem Ending.of_outstanding {s t : State} {es : List TpEvent} {full : List TpRequest} (h : Ending s t es full)
    (ho : s.outstanding = none) {q : TpRequest} (hq : t.outstanding = some q) :
    es.getLast? = some ⟨q, none⟩ ∧ t.responses = s.responses := by
  obtain ⟨hsame, -⟩ | ⟨q', hq', hlast, hresp⟩ := h.responded_or_hung
  · cases (hsame.trans ho).symm.trans hq
  · cases hq'.symm.trans hq
    exact ⟨hlast, hresp⟩

theorem exec_keeps_outstandingIsLast {i : Instr} {s t : State} (ho : s.outstanding = none) (h : exec i s = .next t) :
    t.OutstandingIsLast := by
  obtain ⟨es, hR, hE⟩ := exec_cases h
  intro q hq
  have hlast := (hE.of_outstanding ho hq).1
  rw [hR.trace, List.getLast?_append, hlast, Option.some_or]

theorem step_keeps_outstandingIsLast {s t : State} (hs : s.OutstandingIsLast) (h : step s = .next t) :
    t.OutstandingIsLast :=
  step_keeps (I := State.OutstandingIsLast) (fun _ _ => id) (fun _ _ => State.outstandingIsLast_of_none rfl)
    (fun _ _ _ ho _ => exec_keeps_outstandingIsLast ho) hs h

theorem exec_keeps_errorsCarryNoValue {i : Instr} {s t : State} (hs : s.ErrorsCarryNoValue) (h : exec i s = .next t) :
    t.ErrorsCarryNoValue := by
  obtain ⟨es, -, hE⟩ := exec_cases h
  intro r hr
  obtain ⟨-, r', happ, hvalue⟩ | ⟨-, -, -, hsame⟩ := hE.responded_or_hung
  · rw [happ, List.mem_append, List.mem_singleton] at hr
    rcases hr with hr | rfl
    · exact hs r hr
    · exact hvalue
  · exact hs r (hsame ▸ hr)

theorem step_keeps_errorsCarryNoValue {s t : State} (hs : s.ErrorsCarryNoValue) (h : step s = .next t) :
    t.ErrorsCarryNoValue :=
  step_keeps (I := State.ErrorsCarryNoValue) (fun _ _ => id) (fun _ => id)
    (fun _ _ _ _ => exec_keeps_errorsCarryNoValue) hs h

/-- Responses that end in one response each agree in it. -/
theorem last_response_eq {rs rs' : List Response} {r r' : Response} (h : rs ++ [r] = rs' ++ [r']) : r = r' :=
  List.singleton_injective (List.append_inj' h rfl).2

/-! ## The headline invariants -/

/-- Settles O55. -/
theorem goodHoldsAtReset : Obligations.GoodHoldsAtReset where
  lifecycle := State.lifecycle_of_empty rfl rfl rfl
  fine_in_range := State.fineInRange_of_none rfl
  fine_is_fresh := State.fineIsFresh_of_none rfl
  only_issued := nofun
  outstanding_is_last := State.outstandingIsLast_of_none rfl
  errors_carry_no_value := nofun

/-- Settles O56: each promise is kept by every step on its own. -/
theorem everyStepKeepsGood : Obligations.EveryStepKeepsGood := fun _ _ hs h =>
  { lifecycle := step_keeps_lifecycle hs.lifecycle h
    fine_in_range := step_keeps_fineInRange hs.fine_in_range h
    fine_is_fresh := step_keeps_fineIsFresh hs.fine_is_fresh h
    only_issued := step_keeps_onlyIssued hs.only_issued h
    outstanding_is_last := step_keeps_outstandingIsLast hs.outstanding_is_last h
    errors_carry_no_value := step_keeps_errorsCarryNoValue hs.errors_carry_no_value h }

/-- Settles O57: `T_FINE` is written only together with a temperature sample, and emptied whenever the store changes. -/
theorem everyStepKeepsTheFineFresh : Obligations.EveryStepKeepsTheFineFresh :=
  fun _ _ => step_keeps_fineIsFresh

/-- A lifecycle state on whose port nothing waits makes a step. -/
theorem State.Lifecycle.step_answers {s : State} (hs : s.Lifecycle) (ho : s.outstanding = none) :
    ∃ t, step s = .next t := by
  cases hin : s.inputs with
  | nil => exact ⟨s, step_idle hin ho⟩
  | cons input rest =>
    cases input with
    | hardwareReset => exact ⟨_, step_hardwareReset hin⟩
    | command w =>
      rw [step_command hin ho]
      have hrest : ({ s with inputs := rest } : State).Lifecycle := ⟨hs.ready_has_cal, hs.uninitialized_is_empty⟩
      exact hrest.exec_answers (decode w)

/-- Settles O58. -/
theorem noStepStopsWithoutAHang : Obligations.NoStepStopsWithoutAHang := by
  intro s hs ho
  obtain ⟨t, ht⟩ := hs.step_answers ho
  exact ⟨t, ht, step_keeps_lifecycle hs ht⟩

end Sys2Proof.Machine
end

section
/-!
Proofs of the family `44_commands.md` about READ_TEMPERATURE, READ_PRESSURE and RESET: whole next states, by how the
collaborator answers (R95 to R99, R112).
-/

namespace Sys2Proof.Machine

/-! ## A state after some transport events -/

/-- `s` after the transport events `es`, each of which took one answer (R29). -/
def State.after (s : State) (es : List TpEvent) : State :=
  { s with
    trace := s.trace ++ es
    answers := s.answers.drop es.length
    drawn := s.drawn + (es.length - s.answers.length) }

/-- Taking an answer and observing its event is one transport event. -/
theorem State.nextAnswer_observe (s : State) (q : TpRequest) (r : Option TpReply) :
    s.nextAnswer.2.observe q r = s.after [⟨q, r⟩] := by
  rw [State.nextAnswer_snd]
  rfl

/-- What a list of transactions leaves, when the last one completed. -/
theorem Transacted.eq_after {s t : State} {es : List TpEvent} (h : Transacted s t es)
    (ho : t.outstanding = s.outstanding) : t = s.after es :=
  h.state_eq ho

theorem State.after_answerAt (s : State) (es : List TpEvent) (j : Nat) :
    (s.after es).answerAt j = s.answerAt (es.length + j) :=
  State.answerAt_after rfl rfl j

theorem State.after_after (s : State) (es fs : List TpEvent) : (s.after es).after fs = s.after (es ++ fs) := by
  have hdrawn : s.drawn + (es.length - s.answers.length) + (fs.length - (s.answers.length - es.length)) =
      s.drawn + (es.length + fs.length - s.answers.length) := by omega
  simp only [State.after, List.append_assoc, List.drop_drop, List.length_drop, List.length_append, hdrawn]

/-- Between its two bursts READ_PRESSURE writes `T_FINE`, which has no part in the second transaction. -/
theorem State.after_setTFine_nextAnswer (s : State) (e : TpEvent) (v : Int) :
    ((s.after [e]).setTFine v).nextAnswer.1 = s.answerAt 1 :=
  (State.nextAnswer_eq_answerAt _).trans (s.after_answerAt [e] 0)

theorem State.after_setTFine_after (s : State) (e e' : TpEvent) (v : Int) :
    ((s.after [e]).setTFine v).after [e'] = (s.after [e, e']).setTFine v :=
  congrArg (State.setTFine · v) (s.after_after [e] [e'])

/-! ## RESET (R98, R99) -/

section
variable {s : State} (hc : s.control = .ready)
include hc

theorem exec_reset_bytes {b0 b1 b2 : Byte} (h : s.nextAnswer.1 = .bytes b0 b1 b2) :
    exec .reset s =
      .next ((s.after [⟨.writeByte 0xE0#8 0xB6#8, some (.data 0#24)⟩]).toUninitialized.respond .ok 0#64) := by
  rw [exec_reset hc, resetSteps, writeByte, transact_bytes h, State.nextAnswer_observe]
  rfl

theorem exec_reset_fail (h : s.nextAnswer.1 = .fail) :
    exec .reset s =
      .next ((s.after [⟨.writeByte 0xE0#8 0xB6#8, some .failure⟩]).toUninitialized.takeError .transport) := by
  rw [exec_reset hc, resetSteps, writeByte, transact_fail h, State.nextAnswer_observe]
  rfl

theorem exec_reset_never (h : s.nextAnswer.1 = .never) :
    exec .reset s = .next { s.after [⟨.writeByte 0xE0#8 0xB6#8, none⟩] with
      outstanding := some (.writeByte 0xE0#8 0xB6#8) } := by
  rw [exec_reset hc, resetSteps, writeByte, transact_never h, State.nextAnswer_observe]
  rfl

/-- RESET in `Ready` issues its one write, however it is answered (R98). -/
theorem exec_reset_trace {t : State} (h : exec .reset s = .next t) :
    ∃ r, t.trace = s.trace ++ [⟨.writeByte 0xE0#8 0xB6#8, r⟩] := by
  cases hn : s.nextAnswer.1 with
  | bytes b0 b1 b2 =>
    cases (exec_reset_bytes hc hn).symm.trans h
    exact ⟨_, rfl⟩
  | fail =>
    cases (exec_reset_fail hc hn).symm.trans h
    exact ⟨_, rfl⟩
  | never =>
    cases (exec_reset_never hc hn).symm.trans h
    exact ⟨_, rfl⟩

end

/-- Settles O44. -/
theorem resetResult : Obligations.ResetResult := by
  intro s hc
  rw [State.nextAnswer_snd]
  exact ⟨fun _ _ _ => exec_reset_bytes hc, exec_reset_fail hc, exec_reset_never hc⟩

/-! ## READ_TEMPERATURE (R95) -/

/-- The event of a burst read of `reg` that delivered three bytes (R32). -/
abbrev burstEvent (reg : RegAddr) (b0 b1 b2 : Byte) : TpEvent :=
  ⟨.read24 reg, some (.data (BitVec.ofNat 24 (65536 * b0.toNat + 256 * b1.toNat + b2.toNat)))⟩

section
variable {s : State}

/-- The temperature phase by its one answer. -/
theorem tempPhase_of_bytes {k : TempCoeffs} {b0 b1 b2 : Byte} (hk : s.tempCoeffs = .ok k)
    (h : s.nextAnswer.1 = .bytes b0 b1 b2) :
    tempPhase s = .ok (.done (compT (byteSample b0 b1 b2) k).tCenti
      ((s.after [burstEvent 0xFA#8 b0 b1 b2]).setTFine (compT (byteSample b0 b1 b2) k).fine)) := by
  rw [tempPhase_bytes hk h, State.nextAnswer_observe]
  rfl

theorem tempPhase_of_fail (h : s.nextAnswer.1 = .fail) :
    tempPhase s = .ok (.raised .transport (s.after [⟨.read24 0xFA#8, some .failure⟩])) := by
  rw [tempPhase, sample_fail h, State.nextAnswer_observe]
  rfl

theorem tempPhase_of_never (h : s.nextAnswer.1 = .never) :
    tempPhase s = .ok (.hung { s.after [⟨.read24 0xFA#8, none⟩] with outstanding := some (.read24 0xFA#8) }) := by
  rw [tempPhase, sample_never h, State.nextAnswer_observe]
  rfl

/-- The pressure phase by its one answer. -/
theorem pressPhase_of_bytes {k : PressCoeffs} {f : Fine} {b0 b1 b2 : Byte} (hk : s.pressCoeffs = .ok k)
    (hf : s.tFine = some f) (h : s.nextAnswer.1 = .bytes b0 b1 b2) :
    pressPhase s = .ok (.done (compP (byteSample b0 b1 b2) f.toInt k) (s.after [burstEvent 0xF7#8 b0 b1 b2])) := by
  rw [pressPhase_bytes hk hf h, State.nextAnswer_observe]
  rfl

theorem pressPhase_of_fail (h : s.nextAnswer.1 = .fail) :
    pressPhase s = .ok (.raised .transport (s.after [⟨.read24 0xF7#8, some .failure⟩])) := by
  rw [pressPhase, sample_fail h, State.nextAnswer_observe]
  rfl

theorem pressPhase_of_never (h : s.nextAnswer.1 = .never) :
    pressPhase s = .ok (.hung { s.after [⟨.read24 0xF7#8, none⟩] with outstanding := some (.read24 0xF7#8) }) := by
  rw [pressPhase, sample_never h, State.nextAnswer_observe]
  rfl

end

/-- Settles O36. -/
theorem readTemperatureResult : Obligations.ReadTemperatureResult := by
  intro s w b0 b1 b2 hc hw h
  rw [exec_readTemperature hc, tempPhase_of_bytes (State.tempCoeffs_ofStore hw) h, State.nextAnswer_snd]
  rfl

/-- Settles O37. -/
theorem readTemperatureWithoutASample : Obligations.ReadTemperatureWithoutASample := by
  intro s hc
  rw [exec_readTemperature hc, State.nextAnswer_snd]
  refine ⟨fun h => ?_, fun h => ?_⟩
  · rw [tempPhase_of_fail h]
    rfl
  · rw [tempPhase_of_never h]
    rfl

/-! ## READ_PRESSURE (R96) -/

section
variable {s : State} (hc : s.control = .ready)
include hc

theorem exec_readPressure_temp_fail (h : s.nextAnswer.1 = .fail) :
    exec .readPressure s = .next ((s.after [⟨.read24 0xFA#8, some .failure⟩]).takeError .transport) := by
  rw [exec_readPressure hc, readPressureSteps, tempPhase_of_fail h]
  rfl

theorem exec_readPressure_temp_never (h : s.nextAnswer.1 = .never) :
    exec .readPressure s =
      .next { s.after [⟨.read24 0xFA#8, none⟩] with outstanding := some (.read24 0xFA#8) } := by
  rw [exec_readPressure hc, readPressureSteps, tempPhase_of_never h]
  rfl

/-- Once the temperature burst has arrived, READ_PRESSURE is its pressure phase (R96). -/
theorem exec_readPressure_temp_bytes {k : TempCoeffs} {b0 b1 b2 : Byte} (hk : s.tempCoeffs = .ok k)
    (h : s.answerAt 0 = .bytes b0 b1 b2) :
    exec .readPressure s = finishReading (pressPhase
      ((s.after [burstEvent 0xFA#8 b0 b1 b2]).setTFine (compT (byteSample b0 b1 b2) k).fine)) := by
  rw [exec_readPressure hc, readPressureSteps, tempPhase_of_bytes hk (s.nextAnswer_eq_answerAt.trans h)]

variable {kt : TempCoeffs} {b0 b1 b2 : Byte} (hkt : s.tempCoeffs = .ok kt) (h0 : s.answerAt 0 = .bytes b0 b1 b2)
include hkt h0

theorem exec_readPressure_press_bytes {kp : PressCoeffs} {c0 c1 c2 : Byte} (hkp : s.pressCoeffs = .ok kp)
    (h1 : s.answerAt 1 = .bytes c0 c1 c2) :
    exec .readPressure s =
      .next (((s.after [burstEvent 0xFA#8 b0 b1 b2, burstEvent 0xF7#8 c0 c1 c2]).setTFine
        (compT (byteSample b0 b1 b2) kt).fine).respond .ok
          (BitVec.ofInt 64 (compP (byteSample c0 c1 c2) (compT (byteSample b0 b1 b2) kt).fine kp))) := by
  have hk : ((s.after [burstEvent 0xFA#8 b0 b1 b2]).setTFine (compT (byteSample b0 b1 b2) kt).fine).pressCoeffs =
      .ok kp := (State.pressCoeffs_congr rfl).trans hkp
  rw [exec_readPressure_temp_bytes hc hkt h0, pressPhase_of_bytes hk rfl
    ((State.after_setTFine_nextAnswer ..).trans h1), State.after_setTFine_after, toInt_ofInt_fine]
  rfl

theorem exec_readPressure_press_fail (h1 : s.answerAt 1 = .fail) :
    exec .readPressure s =
      .next (((s.after [burstEvent 0xFA#8 b0 b1 b2, ⟨.read24 0xF7#8, some .failure⟩]).setTFine
        (compT (byteSample b0 b1 b2) kt).fine).takeError .transport) := by
  rw [exec_readPressure_temp_bytes hc hkt h0, pressPhase_of_fail
    ((State.after_setTFine_nextAnswer ..).trans h1), State.after_setTFine_after]
  rfl

theorem exec_readPressure_press_never (h1 : s.answerAt 1 = .never) :
    exec .readPressure s =
      .next { (s.after [burstEvent 0xFA#8 b0 b1 b2, ⟨.read24 0xF7#8, none⟩]).setTFine
        (compT (byteSample b0 b1 b2) kt).fine with outstanding := some (.read24 0xF7#8) } := by
  rw [exec_readPressure_temp_bytes hc hkt h0, pressPhase_of_never
    ((State.after_setTFine_nextAnswer ..).trans h1), State.after_setTFine_after]
  rfl

end

/-- Settles O39. -/
theorem readPressureWithoutATemperature : Obligations.ReadPressureWithoutATemperature := by
  intro s hc
  rw [State.nextAnswer_snd]
  exact ⟨exec_readPressure_temp_fail hc, exec_readPressure_temp_never hc⟩

/-- Settles O38. -/
theorem readPressureResult : Obligations.ReadPressureResult := by
  intro s w b0 b1 b2 c0 c1 c2 hc hw h0 h1
  exact exec_readPressure_press_bytes hc (State.tempCoeffs_ofStore hw) h0 (State.pressCoeffs_ofStore hw) h1

/-- Settles O40. -/
theorem readPressureWithoutAPressureSample : Obligations.ReadPressureWithoutAPressureSample := by
  intro s w b0 b1 b2 hc hw h0
  have hkt := State.tempCoeffs_ofStore hw
  exact ⟨exec_readPressure_press_fail hc hkt h0, exec_readPressure_press_never hc hkt h0⟩

/-! ## What READ_PRESSURE depends on and pairs (R97) -/

/-- Without its coefficients the temperature phase faults at a burst that arrives (R22). -/
theorem tempPhase_of_error {s : State} {f : Fault} {b0 b1 b2 : Byte} (hk : s.tempCoeffs = .error f)
    (h : s.nextAnswer.1 = .bytes b0 b1 b2) : tempPhase s = .error f := by
  rw [tempPhase, sample_bytes h]
  simp only
  rw [State.tempCoeffs_congr (s := s) (by simp), hk]

/-- Without its coefficients the pressure phase faults at a burst that arrives (R22). -/
theorem pressPhase_of_error {s : State} {f : Fault} {b0 b1 b2 : Byte} (hk : s.pressCoeffs = .error f)
    (h : s.nextAnswer.1 = .bytes b0 b1 b2) : pressPhase s = .error f := by
  rw [pressPhase, sample_bytes h]
  simp only
  rw [State.pressCoeffs_congr (s := s) (by simp), hk]

section
variable {s t : State} (hc : s.control = .ready) (h : exec .readPressure s = .next t)
include hc h

/-- A READ_PRESSURE that answers after its temperature burst has found the coefficients of COMP_T. -/
theorem tempCoeffs_of_readPressure {b0 b1 b2 : Byte} (h0 : s.answerAt 0 = .bytes b0 b1 b2) :
    ∃ k, s.tempCoeffs = .ok k := by
  cases hk : s.tempCoeffs with
  | ok k => exact ⟨k, rfl⟩
  | error f =>
    rw [exec_readPressure hc, readPressureSteps, tempPhase_of_error hk (s.nextAnswer_eq_answerAt.trans h0)] at h
    cases h

/-- A READ_PRESSURE that answers after its pressure burst has found the coefficients of COMP_P. -/
theorem pressCoeffs_of_readPressure {kt : TempCoeffs} {b0 b1 b2 c0 c1 c2 : Byte} (hkt : s.tempCoeffs = .ok kt)
    (h0 : s.answerAt 0 = .bytes b0 b1 b2) (h1 : s.answerAt 1 = .bytes c0 c1 c2) : ∃ k, s.pressCoeffs = .ok k := by
  cases hk : s.pressCoeffs with
  | ok k => exact ⟨k, rfl⟩
  | error f =>
    have hk' : ((s.after [burstEvent 0xFA#8 b0 b1 b2]).setTFine (compT (byteSample b0 b1 b2) kt).fine).pressCoeffs =
        .error f := (State.pressCoeffs_congr rfl).trans hk
    rw [exec_readPressure_temp_bytes hc hkt h0,
      pressPhase_of_error hk' ((State.after_setTFine_nextAnswer ..).trans h1)] at h
    cases h

end

/-- With another content of `T_FINE` the next answer is the same. -/
theorem State.nextAnswer_tFine_irrel (s : State) (f : Option Fine) :
    ({ s with tFine := f } : State).nextAnswer.1 = s.nextAnswer.1 := by
  rw [State.nextAnswer_eq_answerAt, State.nextAnswer_eq_answerAt]
  rfl

theorem Control.eq_or_eq (c : Control) : c = .uninitialized ∨ c = .ready := by
  cases c with
  | uninitialized => exact .inl rfl
  | ready => exact .inr rfl

/-- Settles O42: a temperature burst that arrives overwrites `T_FINE` before its one read, and one that does not ends the
command without a read. -/
theorem pressureIgnoresTheOldFine : Obligations.PressureIgnoresTheOldFine := by
  intro s t f h
  have hsame := s.nextAnswer_tFine_irrel f
  obtain hc | hc := s.control.eq_or_eq
  · have hv : validIn .readPressure s.control = false := by rw [hc]; rfl
    cases (exec_refused hv).symm.trans h
    exact .inr ⟨rfl, exec_refused (s := { s with tFine := f }) hv⟩
  · cases hn : s.nextAnswer.1 with
    | fail =>
      cases (exec_readPressure_temp_fail hc hn).symm.trans h
      exact .inr ⟨rfl, exec_readPressure_temp_fail (s := { s with tFine := f }) hc (hsame.trans hn)⟩
    | never =>
      cases (exec_readPressure_temp_never hc hn).symm.trans h
      exact .inr ⟨rfl, exec_readPressure_temp_never (s := { s with tFine := f }) hc (hsame.trans hn)⟩
    | bytes b0 b1 b2 =>
      have h0 := s.nextAnswer_eq_answerAt.symm.trans hn
      obtain ⟨k, hk⟩ := tempCoeffs_of_readPressure hc h h0
      have hk' : ({ s with tFine := f } : State).tempCoeffs = .ok k := hk
      rw [exec_readPressure_temp_bytes hc hk h0] at h
      exact .inl ((exec_readPressure_temp_bytes (s := { s with tFine := f }) hc hk' h0).trans h)

/-- Settles O43, by how the two bursts are answered: only two that arrive end in `OK`. -/
theorem okPressurePairsItsOwnSamples : Obligations.OkPressurePairsItsOwnSamples := by
  intro s t v hc h hr
  have hresp : s.responses ≠ s.responses ++ [⟨.ok, v⟩] := by simp
  cases h0 : s.answerAt 0 with
  | fail =>
    cases (exec_readPressure_temp_fail hc (s.nextAnswer_eq_answerAt.trans h0)).symm.trans h
    cases last_response_eq hr
  | never =>
    cases (exec_readPressure_temp_never hc (s.nextAnswer_eq_answerAt.trans h0)).symm.trans h
    exact absurd hr hresp
  | bytes b0 b1 b2 =>
    obtain ⟨kt, hkt⟩ := tempCoeffs_of_readPressure hc h h0
    cases h1 : s.answerAt 1 with
    | fail =>
      cases (exec_readPressure_press_fail hc hkt h0 h1).symm.trans h
      cases last_response_eq hr
    | never =>
      cases (exec_readPressure_press_never hc hkt h0 h1).symm.trans h
      exact absurd hr hresp
    | bytes c0 c1 c2 =>
      obtain ⟨kp, hkp⟩ := pressCoeffs_of_readPressure hc h hkt h0 h1
      cases (exec_readPressure_press_bytes hc hkt h0 hkp h1).symm.trans h
      have hv := congrArg Response.value (last_response_eq hr)
      refine ⟨_, _, kt, kp, hkt, hkp, rfl, ?_⟩
      have hsample := fun x0 x1 x2 : Byte => sampleOf_bytes x0 x1 x2
      simp only [sampleOf] at hsample
      rw [hsample, hsample]
      exact ⟨rfl, hv.symm⟩

end Sys2Proof.Machine
end

section
/-!
Proofs of what holds of every command: refusals, the frame, responses, the trace and its requests, the order of the
answers, and hangs (R29, R33, R38, R91, R92, R101, R118, R131).
-/

namespace Sys2Proof.Machine

/-! ## Refused commands (R92) -/

theorem exec_refused_of_control {i : Instr} {s : State}
    (h : i = .begin ∧ s.control = .ready ∨ i ≠ .begin ∧ s.control = .uninitialized) :
    exec i s = .next (s.takeError .state) := by
  apply exec_refused
  rcases h with ⟨rfl, hc⟩ | ⟨hi, hc⟩ <;> rw [hc]
  · rfl
  · cases i with
    | begin => exact absurd rfl hi
    | readTemperature => rfl
    | readPressure => rfl
    | reset => rfl

/-- Settles O30. -/
theorem refusedCommandChangesNothing : Obligations.RefusedCommandChangesNothing :=
  fun _ _ => exec_refused_of_control

/-- A step on a refused command's word. -/
theorem step_refused {i : Instr} {s : State} {rest : List Input} (hi : i ≠ .begin) (hc : s.control = .uninitialized)
    (ho : s.outstanding = none) (hin : s.inputs = .command (encode i) :: rest) :
    step s = .next { s with inputs := rest, responses := s.responses ++ [⟨.errState, 0#64⟩] } := by
  rw [step_command hin ho, decode_encode]
  exact exec_refused_of_control (.inr ⟨hi, hc⟩)

theorem core_run_succ {M : Host.Core} {s t : M.State} (h : M.step s = .next t) (n : Nat) :
    M.run (n + 1) s = M.run n t := by
  simp only [Host.Core.run, h]

/-- Settles O45, by induction on the commands. -/
theorem readsAreRefusedUntilBegin : Obligations.ReadsAreRefusedUntilBegin := by
  intro cmds
  induction cmds with
  | nil =>
    rintro ⟨⟩ rest - - - rfl
    simp only [List.length_nil, List.replicate_zero, List.append_nil]
    rfl
  | cons i cmds ih =>
    intro s rest hcmds hc ho hin
    have hstep := step_refused (rest := cmds.map (fun j => Input.command (encode j)) ++ rest)
      (hcmds i List.mem_cons_self) hc ho hin
    have htail := ih { s with inputs := cmds.map (fun j => .command (encode j)) ++ rest,
                              responses := s.responses ++ [⟨.errState, 0#64⟩] }
      rest (fun j hj => hcmds j (List.mem_cons_of_mem i hj)) hc ho rfl
    refine ((core_run_succ (M := Sys2Proof.core) hstep _).trans htail).trans ?_
    rw [List.length_cons, List.replicate_succ, List.append_assoc, List.singleton_append]

/-! ## The frame (R12, R63, R100, R123) -/

/-- Settles O46. -/
theorem everyCommandFrame : Obligations.EveryCommandFrame := by
  intro i s t h
  obtain ⟨es, hR, hE⟩ := exec_cases h
  refine ⟨hR.params, hR.inputs, ⟨es, hR.trace.symm⟩, ?_⟩
  obtain ⟨-, r, happ, -⟩ | ⟨-, -, -, hsame⟩ := hE.responded_or_hung
  · exact ⟨[r], happ.symm⟩
  · exact hsame ▸ List.prefix_rfl

/-- RESET alone writes to the device, and only 0xB6 to 0xE0 (R33). -/
theorem writeByte_mem_successTrace {b : Bool} {i : Instr} {r : RegAddr} {v : Byte}
    (h : TpRequest.writeByte r v ∈ successTrace b i) : i = .reset ∧ r = 0xE0#8 ∧ v = 0xB6#8 := by
  cases i with
  | begin => cases b <;> simp [successTrace, calTrace] at h
  | readTemperature => simp [successTrace] at h
  | readPressure => simp [successTrace] at h
  | reset =>
    cases List.mem_singleton.1 h
    exact ⟨rfl, rfl, rfl⟩

/-- A reading keeps `STATE` and the store (R63). -/
theorem Wrote.reading_keeps {i : Instr} {s t : State} (h : Wrote i s t) (hi : i = .readTemperature ∨ i = .readPressure) :
    t.control = s.control ∧ t.cal = s.cal := by
  cases h with
  | nothing hc hcal _ _ => exact ⟨hc, hcal⟩
  | begun hb => subst hb; simp at hi
  | sampled _ hs hc hcal => exact ⟨hc.trans hs.symm, hcal⟩
  | wiped hr => subst hr; simp at hi

/-- Settles O47. -/
theorem readingsWriteOnlyTheFineTemperature : Obligations.ReadingsWriteOnlyTheFineTemperature := by
  intro i s t hi h
  obtain ⟨hc, hcal⟩ := (exec_wrote h).reading_keeps hi
  obtain ⟨es, hR, hE⟩ := exec_cases h
  refine ⟨hc, hcal, State.coeff_congr hcal, es, hR.trace, fun e he r v hw => ?_⟩
  have hreset := (writeByte_mem_successTrace (hw ▸ hE.request_mem he)).1
  subst hreset
  simp at hi

/-- Settles O48, by the four ways a command treats the registers. -/
theorem onlyBeginAndResetChangeTheControlState : Obligations.OnlyBeginAndResetChangeTheControlState := by
  intro i s t h
  cases exec_wrote h with
  | nothing hc hcal _ _ =>
    exact ⟨fun hs ht => (nomatch hs.symm.trans (hc.symm.trans ht)), fun hs ht => (nomatch hs.symm.trans (hc.symm.trans ht)),
      fun _ => hcal⟩
  | begun hi hs hc _ hcal hr =>
    exact ⟨fun _ _ => ⟨hi, hr, hcal⟩, fun hs' => (nomatch hs.symm.trans hs'),
      fun hsame => nomatch hc.symm.trans (hsame.trans hs)⟩
  | sampled _ hs hc hcal =>
    exact ⟨fun hs' => (nomatch hs.symm.trans hs'), fun _ ht => (nomatch hc.symm.trans ht), fun _ => hcal⟩
  | wiped hi hs hc hcal hf =>
    exact ⟨fun hs' => (nomatch hs.symm.trans hs'), fun _ _ => ⟨hi, hcal, hf⟩,
      fun hsame => nomatch hc.symm.trans (hsame.trans hs)⟩

/-! ## Responses (R49, R91) -/

/-- A command whose steps end in the value 0, and that does not hang, has the value 0 in its response. -/
theorem Flow.finish_zero_value {α : Type} {c : Flow α} {rs : List Response} {r : Response}
    (hhung : ∀ u, c = .hung u → u.outstanding ≠ none) (ho : (c.finish fun _ => 0#64).outstanding = none)
    (hr : (c.finish fun _ => 0#64).responses = rs ++ [r]) : r.value = 0#64 := by
  cases c with
  | done a u =>
    cases last_response_eq hr
    rfl
  | raised e u =>
    cases last_response_eq hr
    rfl
  | hung u => exact absurd ho (hhung u rfl)

theorem Flow.Follows.outstanding_of_hung {α : Type} {s t : State} {qs : List TpRequest}
    (h : (Flow.hung t : Flow α).Follows s qs) : t.outstanding ≠ none := by
  obtain ⟨es, q, -, ho, -⟩ := h
  simp [ho]

theorem beginSteps_hung {s t : State} (h : beginSteps s = .hung t) : t.outstanding ≠ none := by
  have hF := beginReads_follows s
  rw [beginSteps_eq] at h
  cases hb : beginReads s with
  | done a u => rw [hb] at h; cases h
  | raised e u => rw [hb] at h; cases h
  | hung u =>
    rw [hb] at h hF
    cases h
    exact hF.outstanding_of_hung

theorem resetSteps_hung {s t : State} (h : resetSteps s = .hung t) : t.outstanding ≠ none := by
  have hF := writeByte_follows Config.addrSoftReset Config.softResetValue s
  unfold resetSteps at h
  cases hw : writeByte Config.addrSoftReset Config.softResetValue s with
  | done a u => rw [hw] at h; cases h
  | raised e u => rw [hw] at h; cases h
  | hung u =>
    rw [hw] at h hF
    cases h
    exact hF.outstanding_of_hung

theorem exec_refused_value {i : Instr} {s t : State} {r : Response}
    (hctl : i = .begin ∧ s.control = .ready ∨ i ≠ .begin ∧ s.control = .uninitialized) (h : exec i s = .next t)
    (hr : t.responses = s.responses ++ [r]) : r.value = 0#64 := by
  cases (exec_refused_of_control hctl).symm.trans h
  cases last_response_eq hr
  rfl

/-- BEGIN and RESET respond with the value 0 (R49; decision D20). -/
theorem exec_lifecycle_value {i : Instr} {s t : State} {r : Response} (hi : i = .begin ∨ i = .reset)
    (h : exec i s = .next t) (ho : t.outstanding = none) (hr : t.responses = s.responses ++ [r]) : r.value = 0#64 := by
  obtain hc | hc := s.control.eq_or_eq <;> rcases hi with rfl | rfl
  · cases (exec_begin hc).symm.trans h
    exact Flow.finish_zero_value (fun _ => beginSteps_hung) ho hr
  · exact exec_refused_value (i := .reset) (.inr ⟨nofun, hc⟩) h hr
  · exact exec_refused_value (.inl ⟨rfl, hc⟩) h hr
  · cases (exec_reset hc).symm.trans h
    exact Flow.finish_zero_value (fun _ => resetSteps_hung) ho hr

/-- Settles O49. -/
theorem exactlyOneResponsePerCommand : Obligations.ExactlyOneResponsePerCommand := by
  refine ⟨fun i s t ho h => ?_, fun s => step_idle⟩
  obtain ⟨es, -, hE⟩ := exec_cases h
  obtain ⟨hsame, r, hr, hvalue⟩ | ⟨q, hq, -, hresp⟩ := hE.responded_or_hung
  · have hto := hsame.trans ho
    refine .inl ⟨hto, r, hr, ?_⟩
    rintro (hne | hi)
    · exact hvalue hne
    · exact exec_lifecycle_value hi h hto hr
  · exact .inr ⟨by simp [hq], hresp⟩

/-! ## The trace (R101, R111, R118) -/

theorem ErrorKind.status_ne_ok (k : ErrorKind) : k.status ≠ .ok := by
  cases k <;> decide

theorem Ending.requests_of_ok {s t : State} {es : List TpEvent} {full : List TpRequest} (h : Ending s t es full)
    {v : Value} (hr : t.responses = s.responses ++ [⟨.ok, v⟩]) : es.map TpEvent.request = full := by
  cases h with
  | refused h _ =>
    subst h
    cases last_response_eq hr
  | ok _ _ _ hq _ => exact hq
  | raised k fs e _ h => exact absurd (congrArg Response.status (last_response_eq (h.symm.trans hr))) k.status_ne_ok
  | hung q fs _ h =>
    rw [h] at hr
    simp at hr

theorem Ending.events_of_errState {s t : State} {es : List TpEvent} {full : List TpRequest} (h : Ending s t es full)
    (hr : t.responses = s.responses ++ [⟨.errState, 0#64⟩]) : es = [] := by
  cases h with
  | refused _ hes => exact hes
  | ok v h => cases last_response_eq (h.symm.trans hr)
  | raised k fs e _ h _ _ _ hk =>
    obtain ⟨rfl, -⟩ | ⟨rfl, -⟩ := hk
    all_goals cases last_response_eq (h.symm.trans hr)
  | hung q fs _ h =>
    rw [h] at hr
    simp at hr

/-- Settles O50. -/
theorem traceFollowsTheTable : Obligations.TraceFollowsTheTable := by
  intro i s t h
  obtain ⟨es, hR, hE⟩ := exec_cases h
  exact ⟨es, hR.trace, hE.requests_prefix, fun _ => hE.requests_of_ok, hE.events_of_errState⟩

theorem successTrace_nodup (b : Bool) (i : Instr) : (successTrace b i).Nodup := by
  cases b <;> cases i <;> decide

theorem successTrace_length_le (b : Bool) (i : Instr) : (successTrace b i).length ≤ 14 := by
  cases b <;> cases i <;> decide

theorem getElem?_concat_eq_some {α : Type} {l : List α} {x e : α} {j : Nat} (h : (l ++ [x])[j]? = some e) :
    e ∈ l ∨ j = l.length ∧ e = x := by
  by_cases hj : j < l.length
  · rw [List.getElem?_append_left hj] at h
    exact .inl (List.mem_of_getElem? h)
  · have hjl : j < (l ++ [x]).length := (List.getElem?_eq_some_iff.1 h).1
    have hj' : j = l.length := by
      rw [List.length_append, List.length_singleton] at hjl
      omega
    subst hj'
    simp at h
    exact .inr ⟨rfl, h.symm⟩

theorem TpEvent.delivered.ne_failure {e : TpEvent} (h : e.delivered) : e.reply ≠ some .failure := by
  obtain ⟨d, hd⟩ := h
  simp [hd]

theorem TpEvent.delivered.ne_none {e : TpEvent} (h : e.delivered) : e.reply ≠ none := by
  obtain ⟨d, hd⟩ := h
  simp [hd]

/-- A transaction that fails is the last of its command, which answers `ERR_TRANSPORT` (R108, R118). -/
theorem Ending.of_failure {s t : State} {es : List TpEvent} {full : List TpRequest} (h : Ending s t es full) {j : Nat}
    {e : TpEvent} (he : es[j]? = some e) (hf : e.reply = some .failure) :
    j + 1 = es.length ∧ t.responses = s.responses ++ [⟨.errTransport, 0#64⟩] := by
  cases h with
  | refused _ hes => simp [hes] at he
  | ok v _ _ _ hd => exact absurd hf (hd e (List.mem_of_getElem? he)).ne_failure
  | raised k fs e' hes hr _ _ hd hk =>
    subst hes
    obtain hmem | ⟨rfl, rfl⟩ := getElem?_concat_eq_some he
    · exact absurd hf (hd e hmem).ne_failure
    · obtain ⟨rfl, -⟩ | ⟨-, hdel⟩ := hk
      · exact ⟨by simp, hr⟩
      · exact absurd hf hdel.ne_failure
  | hung q fs hes _ _ _ hd =>
    subst hes
    obtain hmem | ⟨-, rfl⟩ := getElem?_concat_eq_some he
    · exact absurd hf (hd e hmem).ne_failure
    · cases hf

/-- Settles O51. -/
theorem aFailedTransactionIsNeverRetried : Obligations.AFailedTransactionIsNeverRetried := by
  intro i s t h
  obtain ⟨es, hR, hE⟩ := exec_cases h
  exact ⟨es, hR.trace, hE.requests_prefix.sublist.nodup (successTrace_nodup _ i), fun _ _ => hE.of_failure⟩

/-! ## Writes and addresses (R33, R38) -/

/-- Settles O52. -/
theorem onlyTheSoftResetIsWritten : Obligations.OnlyTheSoftResetIsWritten := by
  refine ⟨fun image reg val => ⟨if_pos rfl, fun a ha => if_neg ha⟩, fun i s t h => ?_⟩
  obtain ⟨es, hR, hE⟩ := exec_cases h
  refine ⟨es, hR.trace, fun e he r v hw => writeByte_mem_successTrace (hw ▸ hE.request_mem he), ?_⟩
  rintro rfl hc
  obtain ⟨r, hr⟩ := exec_reset_trace hc h
  rw [hR.trace, List.append_cancel_left_eq] at hr
  rw [hr]
  rfl

/-- A request reads within a row that the core reads, or writes the row it writes, and touches none of the three unused
registers (R38, R41). -/
def TpRequest.KeepsToItsRow (q : TpRequest) : Prop :=
  ((q.within .readByCore ∧ ∀ r v, q ≠ .writeByte r v) ∨ q.within .writtenByCore ∧ ∃ v, q = .writeByte 0xE0#8 v) ∧
  ∀ r, q.reg = some r → r ≠ 0xF3#8 ∧ r ≠ 0xF4#8 ∧ r ≠ 0xF5#8

theorem TpRequest.keepsToItsRow_of_issuedByCore {q : TpRequest} (h : q.issuedByCore) : q.KeepsToItsRow := by
  cases q with
  | readByte r =>
    obtain rfl : r = Config.addrChipId := by simpa [TpRequest.issuedByCore] using h
    exact ⟨.inl ⟨by decide, nofun⟩, by rintro _ ⟨⟩; decide⟩
  | readWord16LE r =>
    obtain ⟨c, -, rfl⟩ : ∃ c ∈ Coeff.all, r = c.addr := by simpa [TpRequest.issuedByCore] using h
    exact ⟨.inl ⟨by cases c <;> decide, nofun⟩, by rintro _ ⟨⟩; cases c <;> decide⟩
  | read24 r =>
    obtain rfl | rfl : r = Config.addrTempData ∨ r = Config.addrPressureData := by
      simpa [TpRequest.issuedByCore] using h
    all_goals exact ⟨.inl ⟨by decide, nofun⟩, by rintro _ ⟨⟩; decide⟩
  | writeByte r v =>
    obtain ⟨rfl, -⟩ : r = Config.addrSoftReset ∧ v = Config.softResetValue := by
      simpa [TpRequest.issuedByCore] using h
    exact ⟨.inr ⟨rfl, v, rfl⟩, by rintro _ ⟨⟩; decide⟩
  | tpSetup => exact ⟨.inl ⟨rfl, nofun⟩, nofun⟩

/-- Settles O53. -/
theorem unusedDeviceRegistersAreNeverAccessed : Obligations.UnusedDeviceRegistersAreNeverAccessed := by
  intro i s t h
  obtain ⟨es, hR, hE⟩ := exec_cases h
  exact ⟨es, hR.trace, fun e he =>
    TpRequest.keepsToItsRow_of_issuedByCore (successTrace_issuedByCore _ i _ (hE.request_mem he))⟩

/-! ## Answers and hangs (R29, R131) -/

/-- Settles O54. -/
theorem transactionsAreAnsweredInOrder : Obligations.TransactionsAreAnsweredInOrder := by
  intro i s t h
  obtain ⟨es, hR, -⟩ := exec_cases h
  exact ⟨es, hR.trace, hR.replies, State.answerAt_after hR.answers hR.drawn⟩

/-- A transaction without a reply is left outstanding, and its command does not respond (R131). -/
theorem Ending.of_no_reply {s t : State} {es : List TpEvent} {full : List TpRequest} (h : Ending s t es full)
    {e : TpEvent} (he : e ∈ es) (hn : e.reply = none) :
    t.outstanding = some e.request ∧ t.responses = s.responses := by
  cases h with
  | refused _ hes => simp [hes] at he
  | ok v _ _ _ hd => exact absurd hn (hd e he).ne_none
  | raised k fs e' hes _ _ _ hd hk =>
    rw [hes, List.mem_append, List.mem_singleton] at he
    obtain hmem | rfl := he
    · exact absurd hn (hd e hmem).ne_none
    · obtain ⟨-, hf⟩ | ⟨-, hdel⟩ := hk
      · cases hf.symm.trans hn
      · exact absurd hn hdel.ne_none
  | hung q fs hes hr ho _ hd =>
    rw [hes, List.mem_append, List.mem_singleton] at he
    obtain hmem | rfl := he
    · exact absurd hn (hd e hmem).ne_none
    · exact ⟨ho, hr⟩

theorem TpRequest.replyTo_eq_none_iff {q : TpRequest} {a : Answer} : q.replyTo a = none ↔ a = .never := by
  cases a <;> simp [TpRequest.replyTo]

/-- A command that hangs met an answer that never comes, among its first fourteen (R131). -/
theorem Ran.answer_never {s t : State} {es : List TpEvent} {q : TpRequest} (hR : Ran s t es)
    (hlast : es.getLast? = some ⟨q, none⟩) : s.answerAt (es.length - 1) = .never := by
  rw [List.getLast?_eq_getElem?] at hlast
  exact TpRequest.replyTo_eq_none_iff.1 (hR.replies _ _ hlast).symm

/-- Settles O59. -/
theorem aHangLastsUntilTheHardwareReset : Obligations.AHangLastsUntilTheHardwareReset := by
  refine ⟨fun i s t ho h => ?_, fun s q hq => ⟨fun hin => ?_, fun w rest hin => ?_, fun rest hin => ?_⟩,
    fun i s hs ho hans => ?_⟩
  · obtain ⟨es, hR, hE⟩ := exec_cases h
    exact ⟨es, hR.trace, fun e he => hE.of_no_reply he, fun q hq => (hE.of_outstanding ho hq).symm⟩
  · simp only [step, hin, hq]
  · simp only [step, hin, hq]
  · exact ⟨_, step_hardwareReset hin, rfl, rfl, rfl⟩
  · obtain ⟨t, ht⟩ := hs.exec_answers i
    obtain ⟨es, hR, hE⟩ := exec_cases ht
    obtain ⟨hsame, r, hr, -⟩ | ⟨q, -, hlast, -⟩ := hE.responded_or_hung
    · exact ⟨t, r, ht, hsame.trans ho, hr⟩
    · have hlen : es.length ≤ 14 := by
        simpa using hE.requests_prefix.length_le.trans (successTrace_length_le _ i)
      have hpos : es ≠ [] := by
        rintro rfl
        cases hlast
      have := List.length_pos_of_ne_nil hpos
      exact absurd (hR.answer_never hlast) (hans _ (by omega))

end Sys2Proof.Machine
end

section
/-!
Proofs about BEGIN and CAL_LOAD (`44_commands.md` section 2, `40_calibration_store.md`; R59, R64, R65, R93), and of the
physical readings (R49, R73, R85).
-/

namespace Sys2Proof.Machine

/-! ## Before the calibration reads (R93, R107) -/

section
variable {s : State} {b0 b1 b2 : Byte}

theorem tpSetup_of_bytes (h : s.answerAt 0 = .bytes b0 b1 b2) :
    tpSetup s = .done () (s.after [⟨.tpSetup, some (.data 0#24)⟩]) := by
  rw [tpSetup, transact_bytes (s.nextAnswer_eq_answerAt.trans h), State.nextAnswer_observe]
  rfl

theorem checkChipId_of_fail (hchk : s.params.chipIdCheck = true) (h : s.answerAt 0 = .fail) :
    checkChipId s = .raised .transport (s.after [⟨.readByte 0xD0#8, some .failure⟩]) := by
  rw [checkChipId, if_pos hchk, readByte, transact_fail (s.nextAnswer_eq_answerAt.trans h), State.nextAnswer_observe]
  rfl

theorem checkChipId_of_mismatch (hchk : s.params.chipIdCheck = true) (h : s.answerAt 0 = .bytes b0 b1 b2)
    (hne : b0 ≠ s.params.expectedChipId) :
    checkChipId s =
      .raised .chipId (s.after [⟨.readByte 0xD0#8, some (.data (BitVec.ofNat 24 b0.toNat))⟩]) := by
  have hmismatch : ¬ chipIdMatches s.params b0 = true := by simpa [chipIdMatches] using hne
  rw [checkChipId, if_pos hchk, readByte, transact_bytes (s.nextAnswer_eq_answerAt.trans h), State.nextAnswer_observe]
  simp only [Flow.map, Flow.andThen, readByte_assemble, BitVec.ofNat_toNat]
  exact if_neg hmismatch

/-- BEGIN stops at a raised identity check (R107). -/
theorem exec_begin_of_check_raised (hc : s.control = .uninitialized) (h0 : s.answerAt 0 = .bytes b0 b1 b2)
    {k : ErrorKind} {t : State} (h : checkChipId (s.after [⟨.tpSetup, some (.data 0#24)⟩]) = .raised k t) :
    exec .begin s = .next (t.takeError k) := by
  rw [exec_begin hc, beginSteps, tpSetup_of_bytes h0]
  simp only [Flow.andThen, h, Flow.finish]

theorem exec_begin_of_setup_fail (hc : s.control = .uninitialized) (h : s.answerAt 0 = .fail) :
    exec .begin s = .next ((s.after [⟨.tpSetup, some .failure⟩]).takeError .transport) := by
  rw [exec_begin hc, beginSteps, tpSetup, transact_fail (s.nextAnswer_eq_answerAt.trans h), State.nextAnswer_observe]
  rfl

end

/-- Settles O33. -/
theorem beginStopsBeforeTheCalibrationReads : Obligations.BeginStopsBeforeTheCalibrationReads := by
  intro s u0 u1 u2 id i1 i2 hc
  have hnext := s.after_answerAt [⟨.tpSetup, some (.data 0#24)⟩] 0
  refine ⟨fun h => ?setup, fun hchk h0 h1 => ?identity, fun hchk h0 h1 hne => ?mismatch⟩
  case setup =>
    rw [State.nextAnswer_snd]
    exact exec_begin_of_setup_fail hc h
  case identity =>
    rw [exec_begin_of_check_raised hc h0 (checkChipId_of_fail hchk (hnext.trans h1)), State.after_after]
    rfl
  case mismatch =>
    rw [exec_begin_of_check_raised hc h0 (checkChipId_of_mismatch hchk (hnext.trans h1) hne), State.after_after]
    rfl

/-! ## BEGIN by its transport part (R64, R93) -/

section
variable {s t : State} (hc : s.control = .uninitialized)
include hc

/-- Once its reads are done, BEGIN commits the twelve words and becomes `Ready`. -/
theorem exec_begin_of_done {stage : List (Coeff × CalWord)} (h : beginReads s = .done stage t) :
    exec .begin s = .next (({ t with cal := t.cal.commit stage } : State).toReady.respond .ok 0#64) := by
  rw [exec_begin hc, beginSteps_eq, h]
  rfl

theorem exec_begin_of_raised {k : ErrorKind} (h : beginReads s = .raised k t) :
    exec .begin s = .next (t.takeError k) := by
  rw [exec_begin hc, beginSteps_eq, h]
  rfl

theorem exec_begin_of_hung (h : beginReads s = .hung t) : exec .begin s = .next t := by
  rw [exec_begin hc, beginSteps_eq, h]
  rfl

end

/-- Settles O35, by where the transport part of BEGIN stands: only after its last read is a register written. -/
theorem beginIsAllOrNothing : Obligations.BeginIsAllOrNothing := by
  intro s hc ho
  have hF := beginReads_follows s
  cases hb : beginReads s with
  | done stage u =>
    rw [hb] at hF
    obtain ⟨es, hT, hou, -⟩ := hF
    exact ⟨_, exec_begin_of_done hc hb, .inl ⟨rfl, commit_isSome (beginReads_stage hb), rfl, hou.trans ho,
      congrArg (· ++ _) hT.responses⟩⟩
  | raised k u =>
    rw [hb] at hF
    obtain ⟨es, e, hT, hou, -, -, hk⟩ := hF
    refine ⟨_, exec_begin_of_raised hc hb, .inr (.inl ⟨hT.control.trans hc, hT.cal, hT.tFine, hou.trans ho, ?_⟩)⟩
    obtain ⟨rfl, -⟩ | ⟨rfl, -⟩ := hk
    · exact .inl (congrArg (· ++ _) hT.responses)
    · exact .inr (congrArg (· ++ _) hT.responses)
  | hung u =>
    have hou : u.outstanding ≠ none := (hb ▸ hF).outstanding_of_hung
    rw [hb] at hF
    obtain ⟨es, q, hT, -⟩ := hF
    exact ⟨_, exec_begin_of_hung hc hb, .inr (.inr ⟨hT.control.trans hc, hT.cal, hT.tFine, hou, hT.responses⟩)⟩

/-! ## The twelve reads (R59, R60, R65) -/

theorem Coeff.all_getElem?_index (c : Coeff) : Coeff.all[c.index.val]? = some c := by
  cases c <;> rfl

/-- A coefficient stands in `Coeff.all` at its index only. -/
theorem Coeff.index_of_all_getElem? {j : Nat} {c : Coeff} (h : Coeff.all[j]? = some c) : j = c.index.val :=
  (List.getElem?_inj (List.getElem?_eq_some_iff.1 h).1 Coeff.nodup_all).1 (h.trans c.all_getElem?_index.symm)

/-- The setup, the identity read if it is checked, and the twelve calibration reads (R101). -/
theorem successTrace_begin (b : Bool) : successTrace b .begin =
    (.tpSetup :: if b then [.readByte 0xD0#8] else []) ++ Coeff.all.map fun c => .readWord16LE c.addr := by
  cases b <;> rfl

theorem successTrace_begin_length (b : Bool) : (successTrace b .begin).length = (if b then 2 else 1) + 12 := by
  cases b <;> rfl

/-- The transport part of BEGIN when every transaction is answered: the words staged, low byte first. -/
theorem beginReads_answered {s : State} {u0 u1 u2 id i1 i2 : Byte} {lo hi ex : Coeff → Byte}
    (h0 : s.answerAt 0 = .bytes u0 u1 u2)
    (h1 : s.params.chipIdCheck = true → s.answerAt 1 = .bytes id i1 i2 ∧ id = s.params.expectedChipId)
    (hcal : ∀ c : Coeff, s.answerAt ((if s.params.chipIdCheck then 2 else 1) + c.index.val) = .bytes (lo c) (hi c) (ex c)) :
    ∃ t, beginReads s = .done (Coeff.all.map fun c => (c, hi c ++ lo c)) t := by
  obtain ⟨u, es, hU, hlen, hreads⟩ := beginChecks_answered h0 h1
  rw [hreads]
  refine readWords_answered lo hi ex Coeff.all u fun j c hj => ?_
  rw [hU.answerAt, hlen, Coeff.index_of_all_getElem? hj, hcal]

/-- Settles O31. -/
theorem beginLoadsTheTwelveWords : Obligations.BeginLoadsTheTwelveWords := by
  rintro s m u0 u1 u2 id i1 i2 lo hi ex hc rfl h0 h1 hcal
  obtain ⟨t, hb⟩ := beginReads_answered h0 h1 hcal
  have hF := beginReads_follows s
  rw [hb] at hF
  obtain ⟨es, hT, hot, hreq, hdel⟩ := hF
  have hlen : es.length = (if s.params.chipIdCheck then 2 else 1) + 12 := by
    rw [← successTrace_begin_length, ← hreq, List.length_map]
  obtain rfl := hT.eq_after hot
  refine ⟨_, es, ?_, CalStore.commit_all_index s.cal fun c => hi c ++ lo c, ?_, hdel⟩
  · rw [exec_begin_of_done hc hb, ← hlen]
    rfl
  · rw [hreq, successTrace_begin]
    rfl

/-- Settles O32, from O31 with the fake's bytes. -/
theorem beginOnTheInMemoryFake : Obligations.BeginOnTheInMemoryFake := by
  intro s image hc hans hid
  have hcal : ∀ c : Coeff, s.answerAt ((if s.params.chipIdCheck then 2 else 1) + c.index.val) =
      .bytes (image c.addr) (image (c.addr + 1#8)) (image (c.addr + 2#8)) := by
    intro c
    refine hans _ (.readWord16LE c.addr) ?_
    cases s.params.chipIdCheck <;> cases c <;> rfl
  have h1 : s.params.chipIdCheck = true →
      s.answerAt 1 = .bytes (image 0xD0#8) (image 0xD1#8) (image 0xD2#8) ∧ image 0xD0#8 = s.params.expectedChipId :=
    fun hchk => ⟨hans 1 (.readByte 0xD0#8) (by rw [hchk]; rfl), hid hchk⟩
  obtain ⟨cal, es, hexec, hwords, -, -⟩ := beginLoadsTheTwelveWords s _ _ _ _ _ _ _ _ _ _ hc rfl
    (hans 0 .tpSetup rfl) h1 hcal
  rw [successTrace_begin_length]
  exact ⟨_, hexec, rfl, rfl, hwords .T1, hwords .T2, hwords .T3, hwords .P1, hwords .P2, hwords .P3, hwords .P4,
    hwords .P5, hwords .P6, hwords .P7, hwords .P8, hwords .P9⟩

/-- The transport part of BEGIN when calibration read `n` fails: it stops there, after the checks and `n + 1` reads. -/
theorem beginReads_answered_fail {s : State} {n : Nat} {u0 u1 u2 id i1 i2 : Byte} {lo hi ex : Coeff → Byte} (hn : n < 12)
    (h0 : s.answerAt 0 = .bytes u0 u1 u2)
    (h1 : s.params.chipIdCheck = true → s.answerAt 1 = .bytes id i1 i2 ∧ id = s.params.expectedChipId)
    (hcal : ∀ c : Coeff, c.index.val < n →
      s.answerAt ((if s.params.chipIdCheck then 2 else 1) + c.index.val) = .bytes (lo c) (hi c) (ex c))
    (hfail : s.answerAt ((if s.params.chipIdCheck then 2 else 1) + n) = .fail) :
    ∃ t, beginReads s = .raised .transport t ∧
      t.trace.length = s.trace.length + ((if s.params.chipIdCheck then 2 else 1) + n + 1) := by
  obtain ⟨u, es, hU, hlen, hreads⟩ := beginChecks_answered h0 h1
  have hn' : n < Coeff.all.length := hn
  have hsplit : Coeff.all = Coeff.all.take n ++ Coeff.all[n] :: Coeff.all.drop (n + 1) := by
    rw [← List.drop_eq_getElem_cons, List.take_append_drop]
  have htake : (Coeff.all.take n).length = n := List.length_take_of_le hn'.le
  obtain ⟨t, ht, htrace⟩ := readWords_answered_fail lo hi ex (Coeff.all.take n) (Coeff.all.drop (n + 1)) Coeff.all[n] u
    (fun j c hj => by
      have hjn : j < n := htake ▸ (List.getElem?_eq_some_iff.1 hj).1
      rw [List.getElem?_take_of_lt hjn] at hj
      have hidx := Coeff.index_of_all_getElem? hj
      rw [hU.answerAt, hlen, hidx, hcal c (hidx ▸ hjn)])
    (by rw [htake, hU.answerAt, hlen, hfail])
  rw [← hsplit] at ht
  refine ⟨t, hreads.trans ht, ?_⟩
  rw [htrace, htake, hU.trace, List.length_append, hlen]
  omega

/-- CAL_LOAD raises only a transport failure, whose event is the last one, and commits nothing (R64, R65). -/
theorem calLoad_raised {s t : State} {k : ErrorKind} (h : calLoad s = .raised k t) :
    k = .transport ∧ t.cal = s.cal ∧ t.trace.getLast?.map TpEvent.reply = some (some .failure) := by
  have hF := readWords_follows Coeff.all s
  unfold calLoad at h
  cases hr : readWords Coeff.all s with
  | done stage u => rw [hr] at h; cases h
  | hung u => rw [hr] at h; cases h
  | raised k' u =>
    rw [hr] at h hF
    cases h
    obtain rfl := readWords_raised hr
    obtain ⟨es, e, hT, -, -, -, ⟨-, hfail⟩ | ⟨hk, -⟩⟩ := hF
    · refine ⟨rfl, hT.cal, ?_⟩
      rw [hT.trace, ← List.append_assoc, List.getLast?_concat, Option.map_some, hfail]
    · cases hk

/-- The first `n + 1` calibration reads of BEGIN, with what comes before them (R101). -/
theorem take_successTrace_begin (b : Bool) (n : Nat) : (successTrace b .begin).take ((if b then 2 else 1) + n + 1) =
    .tpSetup :: ((if b then [.readByte 0xD0#8] else []) ++ (Coeff.all.take (n + 1)).map fun c => .readWord16LE c.addr) := by
  have hlen : (if b then 2 else 1) + n + 1 =
      (TpRequest.tpSetup :: if b then [.readByte 0xD0#8] else []).length + (n + 1) := by
    cases b <;> exact Nat.add_assoc _ n 1
  rw [successTrace_begin, hlen, List.take_length_add_append, List.map_take, List.cons_append]

/-- Settles O34. -/
theorem calibrationLoadStopsAtTheFirstFailure : Obligations.CalibrationLoadStopsAtTheFirstFailure := by
  refine ⟨?_, fun _ _ _ => calLoad_raised⟩
  rintro s m n u0 u1 u2 id i1 i2 lo hi ex hn hc rfl h0 h1 hcal hfail
  obtain ⟨t, hb, htrace⟩ := beginReads_answered_fail hn h0 h1 hcal hfail
  have hF := beginReads_follows s
  rw [hb] at hF
  obtain ⟨es, e, hT, hot, hreq, -, ⟨-, hreply⟩ | ⟨hk, -⟩⟩ := hF
  case inr => cases hk
  have hlen : (es ++ [e]).length = (if s.params.chipIdCheck then 2 else 1) + n + 1 := by
    rw [hT.trace, List.length_append] at htrace
    omega
  obtain rfl := hT.eq_after hot
  refine ⟨es ++ [e], ?_, ?_, ?_⟩
  · rw [exec_begin_of_raised hc hb, ← hlen]
    rfl
  · rw [List.prefix_iff_eq_take.1 hreq, List.length_map, hlen, take_successTrace_begin]
  · rw [List.getLast?_concat, Option.map_some, hreply]

/-! ## Physical readings (R49, R73, R85) -/

section
variable {n : Int} (hge : -2 ^ 63 ≤ n) (hlt : n < 2 ^ 63)
include hge hlt

theorem toInt_ofInt64_of_range : (BitVec.ofInt 64 n).toInt = n := by
  rw [toInt_ofInt_wrap64, wrap64_of_range (by omega) (by omega)]

theorem Response.celsius_ofInt (st : Status) : (Response.mk st (BitVec.ofInt 64 n)).celsius = (n : ℚ) / 100 := by
  rw [Response.celsius, toInt_ofInt64_of_range hge hlt, Config.tempDivisor, Nat.cast_ofNat]

theorem Response.pascals_ofInt (st : Status) : (Response.mk st (BitVec.ofInt 64 n)).pascals = (n : ℚ) / 256 := by
  rw [Response.pascals, toInt_ofInt64_of_range hge hlt, Config.pressDivisor, Nat.cast_ofNat]

end

/-- Settles O29. -/
theorem readingsAreExactRationals : Obligations.ReadingsAreExactRationals := by
  refine ⟨fun n hge hlt => ⟨Response.celsius_ofInt hge hlt .ok, Response.pascals_ofInt hge hlt .ok⟩, ?_⟩
  rw [Response.pascals_ofInt (by decide) (by decide)]
  norm_num

end Sys2Proof.Machine
end
